-- ==== Sys2Proof/Word.lean ====
section
/-! DEFINITION. The word type of the block: every value it stores, reads or sends is one byte (20_memory.md R52). -/

namespace Sys2Proof

/-- A byte, bit 0 the least significant (00_scope.md R16). -/
abbrev Byte := BitVec 8

/-- A pixel position (column, row), mathematical integers (00_scope.md R16). -/
abbrev Pixel := Int × Int

end Sys2Proof
end

