-- ==== Sys2Proof/Config.lean ====
section
/-! DEFINITION. The Configuration of the block, the parameters the spec gives it, and the values it leaves free. -/

namespace Sys2Proof

/-- The bytes of one charge-pump command: one or two (30_encoding.md R74). -/
inductive CpBytes where
  | one (b : Byte)
  | two (b0 b1 : Byte)
  deriving DecidableEq, Repr, Inhabited

/-- The byte sequence of a charge-pump command, first byte first. -/
def CpBytes.bytes : CpBytes → List Byte
  | .one b => [b]
  | .two b0 b1 => [b0, b1]

/-- `CMD_OPCODE`, the table of prefix and opcode bytes (30_encoding.md R75 to R77), with the OPEN
bytes `CP_BYTES` of the charge-pump command (00_scope.md R13). One entry per command of the map. Of a
command whose byte also carries a field it holds the fixed high bits alone, so that every table keeps the
field (R73, R75). -/
structure CmdTable where
  displayOnOffBits : BitVec 7
  displayClock : Byte
  multiplexRatio : Byte
  displayOffset : Byte
  startLine : Byte
  chargePumpOff : CpBytes
  chargePumpOn : CpBytes
  addressingModeBits : BitVec 7
  contrast : Byte
  pageAddressBits : BitVec 4
  columnLowBits : BitVec 4
  columnHighBits : BitVec 5
  segmentRemapBits : BitVec 7
  entireDisplayBits : BitVec 7
  inverseDisplayBits : BitVec 7
  comScanBits : BitVec 4
  precharge : Byte
  vcomDeselect : Byte
  readModifyWrite : Byte
  endReadModifyWrite : Byte
  noOperation : Byte
  deriving DecidableEq, Repr

/-- The bitmap-blit overrun guard (00_scope.md R14): `ge` stops at `index >= size`, `gt` at
`index > size`. -/
inductive BlitGuard where
  /-- This hardware's guard. -/
  | ge
  /-- The reference source's guard. Not shown by any source example or test (60_exceptions.md R285). UNVERIFIED
  (log 16). -/
  | gt
  deriving DecidableEq, Repr

/-- The Configuration `CFG` (10_state.md R28) with the sequencer and rasterizer parameters fixed
beside it (00_scope.md R13, R14). Read-only for the block's whole lifetime. -/
structure Cfg where
  /-- `DC_PIN`, the identifier of the data/command line (00_scope.md R10). -/
  dcPin : Nat
  /-- `RST_PIN`, the identifier of the reset line (00_scope.md R10). -/
  rstPin : Nat
  /-- `CTX`, the host context passed with every capability call (10_state.md R28). -/
  ctx : Nat
  /-- `W`. -/
  width : Nat
  /-- `H`. -/
  height : Nat
  hasGpio : Bool
  hasBus : Bool
  hasDelay : Bool
  glyphW : Nat
  glyphH : Nat
  firstChar : Nat
  lastChar : Nat
  resetDelayMs : Nat
  initClockDiv : BitVec 4
  initClockOsc : BitVec 4
  cmds : CmdTable
  blitGuard : BlitGuard
  coordMin : Int
  coordMax : Int
  deriving DecidableEq, Repr

/-! Values the spec leaves open. None has a body, so nothing can be proved of one. -/

/-- The host's answer to a bus transmission, a draw (00_scope.md R15, 44_sequencer.md R241). -/
opaque Config.busAnswer : Nat → Bool

/-- Whether `LC` is left `READY` by an `INITIALIZE` that saw a failure, a draw (44_sequencer.md R246). -/
opaque Config.readyAfterFailure : Nat → Bool

/-- The byte a blit reads at `index = size` under `BLIT_GUARD = GT`, a draw (42_rasterizer.md R186;
log 5). Not shown by any source example or test (60_exceptions.md R285). UNVERIFIED (log 16). -/
opaque Config.overrunByte : Nat → Byte

/-- `FONT(g, c)`, a parameter no source gives (00_scope.md R12), where no font table holds it. -/
opaque Config.fontByte : Nat → Nat → Byte

/-- `CP_BYTES(0)`, OPEN (92_eei_decisions.md D16). -/
opaque Config.chargePumpOff : CpBytes

/-- `CP_BYTES(1)`, OPEN (92_eei_decisions.md D16). -/
opaque Config.chargePumpOn : CpBytes

/-- `INIT_CLOCK_DIV`, OPEN (92_eei_decisions.md D17). -/
opaque Config.initClockDiv : BitVec 4

/-- `INIT_CLOCK_OSC`, OPEN (92_eei_decisions.md D17). -/
opaque Config.initClockOsc : BitVec 4

/-- `DC_PIN` of this board, opaque (00_scope.md R10). -/
opaque Config.dcPin : Nat

/-- `RST_PIN` of this board, opaque (00_scope.md R10). -/
opaque Config.rstPin : Nat

/-- `CTX` of this board, opaque (10_state.md R28). -/
opaque Config.ctx : Nat

end Sys2Proof
end

