-- ==== Sys2Proof/Syntax.lean ====
section
/-! DEFINITION. The syntax: command terms (30_encoding.md R81), the operands of requests (R85), and `Instr`, one
constructor per row of spec/opcode_table.json. -/

namespace Sys2Proof

/-- A command term, the encoder's input (30_encoding.md R81). Operands are non-negative integers of
any size, truncated when encoded (R72). The last nine are the extended set (R77), not shown by any source. -/
inductive Command where
  | setDisplayOnOff (on : Nat)
  | setDisplayClock (div osc : Nat)
  | setMultiplexRatio (ratio : Nat)
  | setDisplayOffset (offset : Nat)
  | setDisplayStartLine (line : Nat)
  | setChargePump (en : Nat)
  | setMemoryAddressingMode (mode : Nat)
  | setContrast (value : Nat)
  | setPageAddress (page : Nat)
  | setColumnAddressLow (col : Nat)
  | setColumnAddressHigh (col : Nat)
  | setSegmentRemap (remap : Nat)
  | setEntireDisplayOn (on : Nat)
  | setInverseDisplay (inv : Nat)
  | setComScanDirection (dir : Nat)
  | setPrechargePeriod (pre dis : Nat)
  | setVcomDeselectLevel (level : Nat)
  | readModifyWrite
  | endReadModifyWrite
  | nop
  deriving DecidableEq, Repr

/-- A `bytes` operand (30_encoding.md R85): its value when the request is issued, and whether its
storage is shared with `FB` (20_memory.md R64; log 14). -/
structure ByteSeq where
  data : List Byte
  sharesFb : Bool
  deriving DecidableEq, Repr

/-- One constructor per row of the opcode table. The first twenty are calls of the command encoder
(40_command_encoder.md), the rest the requests of 30_encoding.md R85. -/
inductive Instr where
  | setDisplayOnOff (on : Nat)
  | setDisplayClock (div osc : Nat)
  | setMultiplexRatio (ratio : Nat)
  | setDisplayOffset (offset : Nat)
  | setDisplayStartLine (line : Nat)
  | setChargePump (en : Nat)
  | setMemoryAddressingMode (mode : Nat)
  | setContrast (value : Nat)
  | setPageAddress (page : Nat)
  | setColumnAddressLow (col : Nat)
  | setColumnAddressHigh (col : Nat)
  | setSegmentRemap (remap : Nat)
  | setEntireDisplayOn (on : Nat)
  | setInverseDisplay (inv : Nat)
  | setComScanDirection (dir : Nat)
  | setPrechargePeriod (pre dis : Nat)
  | setVcomDeselectLevel (level : Nat)
  | readModifyWrite
  | endReadModifyWrite
  | nop
  | setPixel (x y : Int) (color : Bool)
  | getPixel (x y : Int)
  | clearFrameBuffer
  | drawLine (x0 y0 x1 y1 : Int)
  | drawRect (x y w h : Int) (filled : Bool)
  | drawCircle (x0 y0 r : Int)
  | drawBitmap (x y w h : Int) (bmp : ByteSeq) (size : Int) (color : Bool)
  | drawChar (x y : Int) (ch : Byte)
  | drawString (x y : Int) (str : ByteSeq)
  | drawStringN (x y : Int) (str : ByteSeq) (n : Int)
  | initializeDriver
  | deinitializeDriver
  | display
  | sendCommand (cmd : Command)
  deriving DecidableEq, Repr

/-- The encoder call of a command term. -/
def Instr.ofCommand : Command → Instr
  | .setDisplayOnOff on => .setDisplayOnOff on
  | .setDisplayClock div osc => .setDisplayClock div osc
  | .setMultiplexRatio ratio => .setMultiplexRatio ratio
  | .setDisplayOffset offset => .setDisplayOffset offset
  | .setDisplayStartLine line => .setDisplayStartLine line
  | .setChargePump en => .setChargePump en
  | .setMemoryAddressingMode mode => .setMemoryAddressingMode mode
  | .setContrast value => .setContrast value
  | .setPageAddress page => .setPageAddress page
  | .setColumnAddressLow col => .setColumnAddressLow col
  | .setColumnAddressHigh col => .setColumnAddressHigh col
  | .setSegmentRemap remap => .setSegmentRemap remap
  | .setEntireDisplayOn on => .setEntireDisplayOn on
  | .setInverseDisplay inv => .setInverseDisplay inv
  | .setComScanDirection dir => .setComScanDirection dir
  | .setPrechargePeriod pre dis => .setPrechargePeriod pre dis
  | .setVcomDeselectLevel level => .setVcomDeselectLevel level
  | .readModifyWrite => .readModifyWrite
  | .endReadModifyWrite => .endReadModifyWrite
  | .nop => .nop

/-- The entry point an issue goes to: the command encoder, the request set, or the formatted-string
convenience that is out of scope (30_encoding.md R70, R87). -/
inductive Port where
  | command
  | request
  | formatted
  deriving DecidableEq, Repr

/-- One issue of the application: an entry point and the bytes handed to it. -/
structure Issue where
  port : Port
  bytes : List Byte
  deriving DecidableEq, Repr

end Sys2Proof
end

