-- ==== Sys2Proof/WellFormed.lean ====
section
/-! DEFINITION. Which instructions have an encoding of their own: every operand fits the field that carries it. An
instruction outside this check still has its meaning (command operands truncate, 30_encoding.md R72; requests are
admitted or refused by R86). -/

namespace Sys2Proof

/-- `v` fits an unsigned field of `n` bits. -/
def fitsField (n v : Nat) : Bool := decide (v < 2 ^ n)

/-- `v` fits the 32-bit signed operand of a request record. DESIGN CHOICE (log 9). -/
def fitsInt (v : Int) : Bool := decide (-2147483648 ≤ v ∧ v < 2147483648)

/-- Every operand of the term fits its field of 30_encoding.md R76, R77. -/
def Command.wellFormed : Command → Bool
  | .setDisplayOnOff on => fitsField 1 on
  | .setDisplayClock div osc => fitsField 4 div && fitsField 4 osc
  | .setMultiplexRatio ratio => fitsField 7 ratio
  | .setDisplayOffset offset => fitsField 7 offset
  | .setDisplayStartLine line => fitsField 7 line
  | .setChargePump en => fitsField 1 en
  | .setMemoryAddressingMode mode => fitsField 1 mode
  | .setContrast value => fitsField 8 value
  | .setPageAddress page => fitsField 4 page
  | .setColumnAddressLow col => fitsField 4 col
  | .setColumnAddressHigh col => fitsField 3 col
  | .setSegmentRemap remap => fitsField 1 remap
  | .setEntireDisplayOn on => fitsField 1 on
  | .setInverseDisplay inv => fitsField 1 inv
  | .setComScanDirection dir => fitsField 1 dir
  | .setPrechargePeriod pre dis => fitsField 4 pre && fitsField 4 dis
  | .setVcomDeselectLevel level => fitsField 8 level
  | .readModifyWrite => true
  | .endReadModifyWrite => true
  | .nop => true

/-- The operands of a command term, in table order. -/
def Command.operands : Command → List Nat
  | .setDisplayOnOff on => [on]
  | .setDisplayClock div osc => [div, osc]
  | .setMultiplexRatio ratio => [ratio]
  | .setDisplayOffset offset => [offset]
  | .setDisplayStartLine line => [line]
  | .setChargePump en => [en]
  | .setMemoryAddressingMode mode => [mode]
  | .setContrast value => [value]
  | .setPageAddress page => [page]
  | .setColumnAddressLow col => [col]
  | .setColumnAddressHigh col => [col]
  | .setSegmentRemap remap => [remap]
  | .setEntireDisplayOn on => [on]
  | .setInverseDisplay inv => [inv]
  | .setComScanDirection dir => [dir]
  | .setPrechargePeriod pre dis => [pre, dis]
  | .setVcomDeselectLevel level => [level]
  | .readModifyWrite => []
  | .endReadModifyWrite => []
  | .nop => []

/-- Every operand of the term fits the 32-bit field that carries it inside a SEND_COMMAND record. DESIGN CHOICE (log 9). -/
def Command.fitsRecord (c : Command) : Bool := c.operands.all (fitsField 32)

/-- The length of the operand fits the 32-bit length field of a request record. DESIGN CHOICE (log 9). -/
def ByteSeq.fitsRecord (b : ByteSeq) : Bool := fitsField 32 b.data.length

/-- The instruction has an encoding that carries every operand whole. -/
def Instr.wellFormed : Instr → Bool
  | .setDisplayOnOff on => Command.wellFormed (.setDisplayOnOff on)
  | .setDisplayClock div osc => Command.wellFormed (.setDisplayClock div osc)
  | .setMultiplexRatio ratio => Command.wellFormed (.setMultiplexRatio ratio)
  | .setDisplayOffset offset => Command.wellFormed (.setDisplayOffset offset)
  | .setDisplayStartLine line => Command.wellFormed (.setDisplayStartLine line)
  | .setChargePump en => Command.wellFormed (.setChargePump en)
  | .setMemoryAddressingMode mode => Command.wellFormed (.setMemoryAddressingMode mode)
  | .setContrast value => Command.wellFormed (.setContrast value)
  | .setPageAddress page => Command.wellFormed (.setPageAddress page)
  | .setColumnAddressLow col => Command.wellFormed (.setColumnAddressLow col)
  | .setColumnAddressHigh col => Command.wellFormed (.setColumnAddressHigh col)
  | .setSegmentRemap remap => Command.wellFormed (.setSegmentRemap remap)
  | .setEntireDisplayOn on => Command.wellFormed (.setEntireDisplayOn on)
  | .setInverseDisplay inv => Command.wellFormed (.setInverseDisplay inv)
  | .setComScanDirection dir => Command.wellFormed (.setComScanDirection dir)
  | .setPrechargePeriod pre dis => Command.wellFormed (.setPrechargePeriod pre dis)
  | .setVcomDeselectLevel level => Command.wellFormed (.setVcomDeselectLevel level)
  | .readModifyWrite => true
  | .endReadModifyWrite => true
  | .nop => true
  | .setPixel x y _ => fitsInt x && fitsInt y
  | .getPixel x y => fitsInt x && fitsInt y
  | .clearFrameBuffer => true
  | .drawLine x0 y0 x1 y1 => fitsInt x0 && fitsInt y0 && fitsInt x1 && fitsInt y1
  | .drawRect x y w h _ => fitsInt x && fitsInt y && fitsInt w && fitsInt h
  | .drawCircle x0 y0 r => fitsInt x0 && fitsInt y0 && fitsInt r
  | .drawBitmap x y w h bmp size _ =>
    fitsInt x && fitsInt y && fitsInt w && fitsInt h && bmp.fitsRecord && fitsInt size
  | .drawChar x y _ => fitsInt x && fitsInt y
  | .drawString x y str => fitsInt x && fitsInt y && str.fitsRecord
  | .drawStringN x y str n => fitsInt x && fitsInt y && str.fitsRecord && fitsInt n
  | .initializeDriver => true
  | .deinitializeDriver => true
  | .display => true
  | .sendCommand cmd => cmd.fitsRecord

end Sys2Proof
end

