-- ==== Sys2Proof/Decode.lean ====
section
/-! DEFINITION. Encodings. The command formats and the reference table of 30_encoding.md, the decoder of command
bytes and of request records (total, rejecting by name), and after it the encoder. The bytes of a request record
are the model's own layout: no source gives one (R70; DESIGN CHOICE, log 9). -/

namespace Sys2Proof

/-! ## Bits and fields -/

/-- `trunc_n(v)`, the low `n` bits (00_scope.md R16). -/
def trunc (n v : Nat) : Nat := v % 2 ^ n

/-- Bit `b` of a byte (00_scope.md R16). -/
def bitAt (v : Byte) (b : Nat) : Bool := v.getLsbD b

/-- The field of `n` low bits of a byte, as a number. -/
def lowField (n : Nat) (b : Byte) : Nat := b.toNat % 2 ^ n

/-- Bits `7..n` of the byte are those of the given one. -/
def sameHigh (n : Nat) (pfx b : Byte) : Bool := decide (b.toNat / 2 ^ n = pfx.toNat / 2 ^ n)

/-! ## Command formats (30_encoding.md R71, R73) -/

/-- A prefix byte: the fixed high bits of a command, the `n` bits below them zero (30_encoding.md R73). -/
def fixedBits {m : Nat} (n : Nat) (p : BitVec m) : Byte := p.setWidth 8 <<< n

/-- The prefix byte of SET_DISPLAY_ON_OFF. -/
def CmdTable.displayOnOff (T : CmdTable) : Byte := fixedBits 1 T.displayOnOffBits

/-- The prefix byte of SET_MEMORY_ADDRESSING_MODE. -/
def CmdTable.addressingMode (T : CmdTable) : Byte := fixedBits 1 T.addressingModeBits

/-- The prefix byte of SET_PAGE_ADDRESS. -/
def CmdTable.pageAddress (T : CmdTable) : Byte := fixedBits 4 T.pageAddressBits

/-- The prefix byte of SET_COLUMN_ADDRESS_LOW. -/
def CmdTable.columnLow (T : CmdTable) : Byte := fixedBits 4 T.columnLowBits

/-- The prefix byte of SET_COLUMN_ADDRESS_HIGH. -/
def CmdTable.columnHigh (T : CmdTable) : Byte := fixedBits 3 T.columnHighBits

/-- The prefix byte of SET_SEGMENT_REMAP. -/
def CmdTable.segmentRemap (T : CmdTable) : Byte := fixedBits 1 T.segmentRemapBits

/-- The prefix byte of SET_ENTIRE_DISPLAY_ON. -/
def CmdTable.entireDisplay (T : CmdTable) : Byte := fixedBits 1 T.entireDisplayBits

/-- The prefix byte of SET_INVERSE_DISPLAY. -/
def CmdTable.inverseDisplay (T : CmdTable) : Byte := fixedBits 1 T.inverseDisplayBits

/-- The prefix byte of SET_COM_SCAN_DIRECTION, its low four bits zero (R71, format C1S). -/
def CmdTable.comScan (T : CmdTable) : Byte := fixedBits 4 T.comScanBits

/-- Format C1: one byte, the field in the low `n` bits. -/
def encC1 (n : Nat) (pfx : Byte) (v : Nat) : List Byte := [pfx ||| BitVec.ofNat 8 (trunc n v)]

/-- Format C1S: one byte, a one-bit field at bit 3. -/
def encC1S (pfx : Byte) (v : Nat) : List Byte := [pfx ||| BitVec.ofNat 8 (trunc 1 v) <<< 3]

/-- Format C2: an opcode and a payload whose low `n` bits are the field. -/
def encC2 (n : Nat) (op : Byte) (v : Nat) : List Byte := [op, BitVec.ofNat 8 (trunc n v)]

/-- Format C2P: an opcode and a payload of two 4-bit fields. -/
def encC2P (op : Byte) (vh vl : Nat) : List Byte :=
  [op, BitVec.ofNat 8 (trunc 4 vh) <<< 4 ||| BitVec.ofNat 8 (trunc 4 vl)]

/-- The command bytes of 30_encoding.md R76 and R77, with given charge-pump bytes. The values are
general knowledge there (R75). PRESUMED (log 7). -/
def CmdTable.withPump (off on : CpBytes) : CmdTable where
  displayOnOffBits := 0b1010111
  displayClock := 0xD5
  multiplexRatio := 0xA8
  displayOffset := 0xD3
  startLine := 0xDC
  chargePumpOff := off
  chargePumpOn := on
  addressingModeBits := 0b0010000
  contrast := 0x81
  pageAddressBits := 0b1011
  columnLowBits := 0b0000
  columnHighBits := 0b00010
  segmentRemapBits := 0b1010000
  entireDisplayBits := 0b1010010
  inverseDisplayBits := 0b1010011
  comScanBits := 0b1100
  precharge := 0xD9
  vcomDeselect := 0xDB
  readModifyWrite := 0xE0
  endReadModifyWrite := 0xEE
  noOperation := 0xE3

/-- The reference table, its charge-pump bytes left free (92_eei_decisions.md D16). -/
def CmdTable.reference : CmdTable := .withPump Config.chargePumpOff Config.chargePumpOn

/-- `CP_BYTES(e)` for an operand `e`, truncated to one bit (40_command_encoder.md R105). -/
def CmdTable.chargePump (T : CmdTable) (e : Nat) : CpBytes :=
  if trunc 1 e = 1 then T.chargePumpOn else T.chargePumpOff

/-- `encode(cmd)` (30_encoding.md R81; 40_command_encoder.md R100 to R110 and R120 to R128). -/
def Command.encode (T : CmdTable) : Command → List Byte
  | .setDisplayOnOff on => encC1 1 T.displayOnOff on
  | .setDisplayClock div osc => encC2P T.displayClock osc div
  | .setMultiplexRatio ratio => encC2 7 T.multiplexRatio ratio
  | .setDisplayOffset offset => encC2 7 T.displayOffset offset
  | .setDisplayStartLine line => encC2 7 T.startLine line
  | .setChargePump en => (T.chargePump en).bytes
  | .setMemoryAddressingMode mode => encC1 1 T.addressingMode mode
  | .setContrast value => encC2 8 T.contrast value
  | .setPageAddress page => encC1 4 T.pageAddress page
  | .setColumnAddressLow col => encC1 4 T.columnLow col
  | .setColumnAddressHigh col => encC1 3 T.columnHigh col
  | .setSegmentRemap remap => encC1 1 T.segmentRemap remap
  | .setEntireDisplayOn on => encC1 1 T.entireDisplay on
  | .setInverseDisplay inv => encC1 1 T.inverseDisplay inv
  | .setComScanDirection dir => encC1S T.comScan dir
  | .setPrechargePeriod pre dis => encC2P T.precharge dis pre
  | .setVcomDeselectLevel level => encC2 8 T.vcomDeselect level
  | .readModifyWrite => encC1 0 T.readModifyWrite 0
  | .endReadModifyWrite => encC1 0 T.endReadModifyWrite 0
  | .nop => encC1 0 T.noOperation 0

/-! ## Decoding -/

/-- Why bytes spell no instruction. -/
inductive DecodeError where
  /-- The bytes end inside a command or a record. -/
  | truncated
  /-- A request identifier outside 30_encoding.md R85's table (R87). -/
  | unknownRequest (id : Byte)
  /-- The formatted-string request (R87). -/
  | formattedString
  /-- A first byte that spells no command, `INVALID(byte)` (R79). -/
  | invalidCommand (b : Byte)
  /-- A Boolean operand that is neither 0 nor 1 (the model's layout, log 9). -/
  | badBoolean (b : Byte)
  /-- A command-term number that names no command (the model's layout, log 9). -/
  | unknownTerm (b : Byte)
  deriving DecidableEq, Repr

/-- The one-byte commands whose first byte is `b` (30_encoding.md R78). Where a table gives two commands one
first byte, the row written first here is read; the spec names no priority. DESIGN CHOICE (log 15). -/
def oneByteCommand (T : CmdTable) (b : Byte) : Option Command :=
  if sameHigh 4 T.columnLow b then some (.setColumnAddressLow (lowField 4 b))
  else if sameHigh 3 T.columnHigh b then some (.setColumnAddressHigh (lowField 3 b))
  else if sameHigh 1 T.addressingMode b then some (.setMemoryAddressingMode (lowField 1 b))
  else if sameHigh 1 T.segmentRemap b then some (.setSegmentRemap (lowField 1 b))
  else if sameHigh 1 T.entireDisplay b then some (.setEntireDisplayOn (lowField 1 b))
  else if sameHigh 1 T.inverseDisplay b then some (.setInverseDisplay (lowField 1 b))
  else if sameHigh 1 T.displayOnOff b then some (.setDisplayOnOff (lowField 1 b))
  else if sameHigh 4 T.pageAddress b then some (.setPageAddress (lowField 4 b))
  else if b = T.comScan then some (.setComScanDirection 0)
  else if b = T.comScan ||| 0x08 then some (.setComScanDirection 1)
  else if b = T.readModifyWrite then some .readModifyWrite
  else if b = T.endReadModifyWrite then some .endReadModifyWrite
  else if b = T.noOperation then some .nop
  else none

/-- The two-byte commands whose opcode is `b`, as a function of the payload byte. The payload is read
whatever its value (30_encoding.md R78). DEDUCED (log 11). The row written first is read where a table gives two
commands one opcode. DESIGN CHOICE (log 15). -/
def twoByteCommand (T : CmdTable) (b : Byte) : Option (Byte → Command) :=
  if b = T.contrast then some fun p => .setContrast p.toNat
  else if b = T.multiplexRatio then some fun p => .setMultiplexRatio p.toNat
  else if b = T.displayOffset then some fun p => .setDisplayOffset p.toNat
  else if b = T.displayClock then some fun p => .setDisplayClock (p.toNat % 16) (p.toNat / 16)
  else if b = T.precharge then some fun p => .setPrechargePeriod (p.toNat % 16) (p.toNat / 16)
  else if b = T.vcomDeselect then some fun p => .setVcomDeselectLevel p.toNat
  else if b = T.startLine then some fun p => .setDisplayStartLine p.toNat
  else none

/-- Reads the charge-pump command off the front of the bytes (30_encoding.md R78). `CP_BYTES(0)` is tried before
`CP_BYTES(1)`, and a first byte of either that is followed by neither sequence is `INVALID`: the spec says neither.
DESIGN CHOICE (log 15). -/
def readChargePump (T : CmdTable) (bs : List Byte) : Except DecodeError (Command × List Byte) :=
  if T.chargePumpOff.bytes.isPrefixOf bs then
    .ok (.setChargePump 0, bs.drop T.chargePumpOff.bytes.length)
  else if T.chargePumpOn.bytes.isPrefixOf bs then
    .ok (.setChargePump 1, bs.drop T.chargePumpOn.bytes.length)
  else if bs.isPrefixOf T.chargePumpOff.bytes || bs.isPrefixOf T.chargePumpOn.bytes then
    .error .truncated
  else .error (.invalidCommand (bs.headD 0))

/-- One command off the front of command-framed bytes (30_encoding.md R78, R79). A row of the map is read before the
charge-pump command where their first bytes coincide. DESIGN CHOICE (log 15). -/
def decodeCommand (T : CmdTable) : List Byte → Except DecodeError (Command × List Byte)
  | [] => .error .truncated
  | b :: rest =>
    match oneByteCommand T b with
    | some c => .ok (c, rest)
    | none =>
      match twoByteCommand T b with
      | some mk =>
        match rest with
        | [] => .error .truncated
        | p :: rest' => .ok (mk p, rest')
      | none => readChargePump T (b :: rest)

/-- One byte. A reader gives a value and the bytes left over, or why there is none. -/
def takeByte : List Byte → Except DecodeError (Byte × List Byte)
  | [] => .error .truncated
  | b :: r => .ok (b, r)

/-- A Boolean: 0 or 1 (30_encoding.md R88). -/
def takeBool : List Byte → Except DecodeError (Bool × List Byte)
  | [] => .error .truncated
  | b :: r => if b = 0 then .ok (false, r) else if b = 1 then .ok (true, r) else .error (.badBoolean b)

/-- A natural number of four bytes, most significant first (log 9). -/
def takeNat : List Byte → Except DecodeError (Nat × List Byte)
  | b0 :: b1 :: b2 :: b3 :: r =>
    .ok (b0.toNat * 16777216 + b1.toNat * 65536 + b2.toNat * 256 + b3.toNat, r)
  | _ => .error .truncated

/-- An integer of four bytes, two's complement, most significant first (log 9). -/
def takeInt (bs : List Byte) : Except DecodeError (Int × List Byte) := do
  let (n, r) ← takeNat bs
  return (if n < 2147483648 then (n : Int) else (n : Int) - 4294967296, r)

/-- `n` bytes. -/
def takeBytes (n : Nat) (bs : List Byte) : Except DecodeError (List Byte × List Byte) :=
  if bs.length < n then .error .truncated else .ok (bs.take n, bs.drop n)

/-- A `bytes` operand: the shares-storage-with-FB mark, the length, the bytes (log 9). -/
def takeByteSeq (bs : List Byte) : Except DecodeError (ByteSeq × List Byte) := do
  let (sharesFb, r) ← takeBool bs
  let (n, r) ← takeNat r
  let (data, r) ← takeBytes n r
  return (⟨data, sharesFb⟩, r)

/-- A command term of one operand. -/
def takeTerm1 (mk : Nat → Command) (bs : List Byte) : Except DecodeError (Command × List Byte) := do
  let (a, r) ← takeNat bs
  return (mk a, r)

/-- A command term of two operands. -/
def takeTerm2 (mk : Nat → Nat → Command) (bs : List Byte) : Except DecodeError (Command × List Byte) := do
  let (a, r) ← takeNat bs
  let (b, r) ← takeNat r
  return (mk a b, r)

/-- A command term: its number in the order of the command map, then its operands (log 9). -/
def takeTerm : List Byte → Except DecodeError (Command × List Byte)
  | [] => .error .truncated
  | k :: r =>
    match k.toNat with
    | 0 => takeTerm1 .setDisplayOnOff r
    | 1 => takeTerm2 .setDisplayClock r
    | 2 => takeTerm1 .setMultiplexRatio r
    | 3 => takeTerm1 .setDisplayOffset r
    | 4 => takeTerm1 .setDisplayStartLine r
    | 5 => takeTerm1 .setChargePump r
    | 6 => takeTerm1 .setMemoryAddressingMode r
    | 7 => takeTerm1 .setContrast r
    | 8 => takeTerm1 .setPageAddress r
    | 9 => takeTerm1 .setColumnAddressLow r
    | 10 => takeTerm1 .setColumnAddressHigh r
    | 11 => takeTerm1 .setSegmentRemap r
    | 12 => takeTerm1 .setEntireDisplayOn r
    | 13 => takeTerm1 .setInverseDisplay r
    | 14 => takeTerm1 .setComScanDirection r
    | 15 => takeTerm2 .setPrechargePeriod r
    | 16 => takeTerm1 .setVcomDeselectLevel r
    | 17 => .ok (.readModifyWrite, r)
    | 18 => .ok (.endReadModifyWrite, r)
    | 19 => .ok (.nop, r)
    | _ => .error (.unknownTerm k)

/-- One request record off the front of the bytes: an identifier of 30_encoding.md R85 and its
operands in table order. The identifiers are shown by no source (60_exceptions.md R285). UNVERIFIED (log 16). -/
def decodeRequest : List Byte → Except DecodeError (Instr × List Byte)
  | [] => .error .truncated
  | id :: r =>
    match id.toNat with
    | 0x01 => do
      let (x, r) ← takeInt r
      let (y, r) ← takeInt r
      let (color, r) ← takeBool r
      return (.setPixel x y color, r)
    | 0x02 => do
      let (x, r) ← takeInt r
      let (y, r) ← takeInt r
      return (.getPixel x y, r)
    | 0x03 => .ok (.clearFrameBuffer, r)
    | 0x10 => do
      let (x0, r) ← takeInt r
      let (y0, r) ← takeInt r
      let (x1, r) ← takeInt r
      let (y1, r) ← takeInt r
      return (.drawLine x0 y0 x1 y1, r)
    | 0x11 => do
      let (x, r) ← takeInt r
      let (y, r) ← takeInt r
      let (w, r) ← takeInt r
      let (h, r) ← takeInt r
      let (filled, r) ← takeBool r
      return (.drawRect x y w h filled, r)
    | 0x12 => do
      let (x0, r) ← takeInt r
      let (y0, r) ← takeInt r
      let (rad, r) ← takeInt r
      return (.drawCircle x0 y0 rad, r)
    | 0x13 => do
      let (x, r) ← takeInt r
      let (y, r) ← takeInt r
      let (w, r) ← takeInt r
      let (h, r) ← takeInt r
      let (bmp, r) ← takeByteSeq r
      let (size, r) ← takeInt r
      let (color, r) ← takeBool r
      return (.drawBitmap x y w h bmp size color, r)
    | 0x20 => do
      let (x, r) ← takeInt r
      let (y, r) ← takeInt r
      let (ch, r) ← takeByte r
      return (.drawChar x y ch, r)
    | 0x21 => do
      let (x, r) ← takeInt r
      let (y, r) ← takeInt r
      let (str, r) ← takeByteSeq r
      return (.drawString x y str, r)
    | 0x22 => do
      let (x, r) ← takeInt r
      let (y, r) ← takeInt r
      let (str, r) ← takeByteSeq r
      let (n, r) ← takeInt r
      return (.drawStringN x y str n, r)
    | 0x30 => .ok (.initializeDriver, r)
    | 0x31 => .ok (.deinitializeDriver, r)
    | 0x32 => .ok (.display, r)
    | 0x33 => do
      let (cmd, r) ← takeTerm r
      return (.sendCommand cmd, r)
    | _ => .error (.unknownRequest id)

/-- The instruction an issue spells, with the bytes left over. -/
def decode (T : CmdTable) (iss : Issue) : Except DecodeError (Instr × List Byte) :=
  match iss.port with
  | .command =>
    match decodeCommand T iss.bytes with
    | .ok (c, r) => .ok (Instr.ofCommand c, r)
    | .error e => .error e
  | .request => decodeRequest iss.bytes
  | .formatted => .error .formattedString

/-! ## Encoding -/

/-- `k` bytes of a number, most significant first. -/
def beBytes : Nat → Nat → List Byte
  | 0, _ => []
  | k + 1, n => BitVec.ofNat 8 (n / 256 ^ k) :: beBytes k n

/-- A natural number of four bytes (log 9). -/
def putNat (n : Nat) : List Byte := beBytes 4 n

/-- An integer of four bytes, two's complement (log 9). -/
def putInt (v : Int) : List Byte := putNat (v % 4294967296).toNat

/-- A Boolean operand (30_encoding.md R88). -/
def putBool (b : Bool) : List Byte := [if b then 1 else 0]

/-- A `bytes` operand (log 9). -/
def putByteSeq (b : ByteSeq) : List Byte := putBool b.sharesFb ++ putNat b.data.length ++ b.data

/-- The number of a command term: its place in the command map (log 9). -/
def Command.number : Command → Nat
  | .setDisplayOnOff _ => 0
  | .setDisplayClock _ _ => 1
  | .setMultiplexRatio _ => 2
  | .setDisplayOffset _ => 3
  | .setDisplayStartLine _ => 4
  | .setChargePump _ => 5
  | .setMemoryAddressingMode _ => 6
  | .setContrast _ => 7
  | .setPageAddress _ => 8
  | .setColumnAddressLow _ => 9
  | .setColumnAddressHigh _ => 10
  | .setSegmentRemap _ => 11
  | .setEntireDisplayOn _ => 12
  | .setInverseDisplay _ => 13
  | .setComScanDirection _ => 14
  | .setPrechargePeriod _ _ => 15
  | .setVcomDeselectLevel _ => 16
  | .readModifyWrite => 17
  | .endReadModifyWrite => 18
  | .nop => 19

/-- A command term as an operand of SEND_COMMAND (log 9). -/
def putTerm (c : Command) : List Byte := BitVec.ofNat 8 c.number :: c.operands.flatMap putNat

/-- The issue that spells an instruction: command bytes for an encoder call (30_encoding.md R73, R76,
R77), a record for a request (R85). -/
def encode (T : CmdTable) : Instr → Issue
  | .setDisplayOnOff on => ⟨.command, Command.encode T (.setDisplayOnOff on)⟩
  | .setDisplayClock div osc => ⟨.command, Command.encode T (.setDisplayClock div osc)⟩
  | .setMultiplexRatio ratio => ⟨.command, Command.encode T (.setMultiplexRatio ratio)⟩
  | .setDisplayOffset offset => ⟨.command, Command.encode T (.setDisplayOffset offset)⟩
  | .setDisplayStartLine line => ⟨.command, Command.encode T (.setDisplayStartLine line)⟩
  | .setChargePump en => ⟨.command, Command.encode T (.setChargePump en)⟩
  | .setMemoryAddressingMode mode => ⟨.command, Command.encode T (.setMemoryAddressingMode mode)⟩
  | .setContrast value => ⟨.command, Command.encode T (.setContrast value)⟩
  | .setPageAddress page => ⟨.command, Command.encode T (.setPageAddress page)⟩
  | .setColumnAddressLow col => ⟨.command, Command.encode T (.setColumnAddressLow col)⟩
  | .setColumnAddressHigh col => ⟨.command, Command.encode T (.setColumnAddressHigh col)⟩
  | .setSegmentRemap remap => ⟨.command, Command.encode T (.setSegmentRemap remap)⟩
  | .setEntireDisplayOn on => ⟨.command, Command.encode T (.setEntireDisplayOn on)⟩
  | .setInverseDisplay inv => ⟨.command, Command.encode T (.setInverseDisplay inv)⟩
  | .setComScanDirection dir => ⟨.command, Command.encode T (.setComScanDirection dir)⟩
  | .setPrechargePeriod pre dis => ⟨.command, Command.encode T (.setPrechargePeriod pre dis)⟩
  | .setVcomDeselectLevel level => ⟨.command, Command.encode T (.setVcomDeselectLevel level)⟩
  | .readModifyWrite => ⟨.command, Command.encode T .readModifyWrite⟩
  | .endReadModifyWrite => ⟨.command, Command.encode T .endReadModifyWrite⟩
  | .nop => ⟨.command, Command.encode T .nop⟩
  | .setPixel x y color => ⟨.request, 0x01 :: (putInt x ++ putInt y ++ putBool color)⟩
  | .getPixel x y => ⟨.request, 0x02 :: (putInt x ++ putInt y)⟩
  | .clearFrameBuffer => ⟨.request, [0x03]⟩
  | .drawLine x0 y0 x1 y1 => ⟨.request, 0x10 :: (putInt x0 ++ putInt y0 ++ putInt x1 ++ putInt y1)⟩
  | .drawRect x y w h filled =>
    ⟨.request, 0x11 :: (putInt x ++ putInt y ++ putInt w ++ putInt h ++ putBool filled)⟩
  | .drawCircle x0 y0 r => ⟨.request, 0x12 :: (putInt x0 ++ putInt y0 ++ putInt r)⟩
  | .drawBitmap x y w h bmp size color =>
    ⟨.request, 0x13 ::
      (putInt x ++ putInt y ++ putInt w ++ putInt h ++ putByteSeq bmp ++ putInt size ++ putBool color)⟩
  | .drawChar x y ch => ⟨.request, 0x20 :: (putInt x ++ putInt y ++ [ch])⟩
  | .drawString x y str => ⟨.request, 0x21 :: (putInt x ++ putInt y ++ putByteSeq str)⟩
  | .drawStringN x y str n => ⟨.request, 0x22 :: (putInt x ++ putInt y ++ putByteSeq str ++ putInt n)⟩
  | .initializeDriver => ⟨.request, [0x30]⟩
  | .deinitializeDriver => ⟨.request, [0x31]⟩
  | .display => ⟨.request, [0x32]⟩
  | .sendCommand cmd => ⟨.request, 0x33 :: putTerm cmd⟩

/-! ## Words of the opcode table -/

/-- The request identifiers of 30_encoding.md R85, shown by no source (60_exceptions.md R285). UNVERIFIED (log 16). -/
def requestIds : List Nat := [0x01, 0x02, 0x03, 0x10, 0x11, 0x12, 0x13, 0x20, 0x21, 0x22, 0x30, 0x31, 0x32, 0x33]

/-- The issue a word of the opcode table stands for. The table numbers a two-byte command with its first
byte in bits 15..8. An 8-bit word that is a request identifier goes to the request set, any other word to
the encoder; bytes beyond the word are zero. DESIGN CHOICE where the two spaces overlap (log 12). -/
def tableIssue (nbits w : Nat) : Issue :=
  ⟨if nbits ≤ 8 ∧ w ∈ requestIds then .request else .command,
    beBytes (nbits / 8) w ++ List.replicate 32 0⟩

/-- The instruction the decoder reads from a word of the opcode table. -/
def decodeTableWord (nbits w : Nat) : Option Instr :=
  match decode CmdTable.reference (tableIssue nbits w) with
  | .ok (i, _) => some i
  | .error _ => none

end Sys2Proof
end

