-- ==== Sys2Proof/Machine/Parameters.lean ====
section
/-! DEFINITION. Quantities derived from the Configuration, its legal values, and the reference configuration of this
hardware. -/

namespace Sys2Proof

/-- `FB_BYTES = (W × H) / 8` (00_scope.md R7). -/
def Cfg.fbBytes (c : Cfg) : Nat := c.width * c.height / 8

/-- `NPAGES = H / 8` (00_scope.md R7). -/
def Cfg.pages (c : Cfg) : Nat := c.height / 8

/-- `GLYPH_COUNT = LAST_CHAR − FIRST_CHAR + 1` (00_scope.md R9). -/
def Cfg.glyphCount (c : Cfg) : Nat := c.lastChar + 1 - c.firstChar

/-- The legal values of 10_state.md R28. -/
def Cfg.legal (c : Cfg) : Bool :=
  decide (1 ≤ c.width ∧ c.width ≤ 128) && decide (8 ≤ c.height ∧ c.height ≤ 128 ∧ c.height % 8 = 0) &&
  decide (1 ≤ c.glyphW) && decide (1 ≤ c.glyphH ∧ c.glyphH ≤ 8) &&
  decide (c.firstChar ≤ c.lastChar ∧ c.lastChar ≤ 255)

/-- The reference configuration: 128 × 128, a 5 × 7 font of codes 32 to 126, delays of 100 ms, guard GE,
operands in [−32768, 32767] (00_scope.md R7 to R9, R13, R14). All capabilities present: DESIGN CHOICE
(log 3). What no source gives stays free: DESIGN CHOICE (log 4). -/
def Cfg.reference : Cfg where
  dcPin := Config.dcPin
  rstPin := Config.rstPin
  ctx := Config.ctx
  width := 128
  height := 128
  hasGpio := true
  hasBus := true
  hasDelay := true
  glyphW := 5
  glyphH := 7
  firstChar := 32
  lastChar := 126
  resetDelayMs := 100
  initClockDiv := Config.initClockDiv
  initClockOsc := Config.initClockOsc
  cmds := CmdTable.reference
  blitGuard := .ge
  coordMin := -32768
  coordMax := 32767

/-- The font table of the reference configuration: 95 glyphs of 5 columns, every byte free (00_scope.md
R12; log 4). -/
def referenceFont : List Byte := (List.range 475).map fun k => Config.fontByte (k / 5) (k % 5)

end Sys2Proof
end

