-- ==== Sys2Proof/Machine/State.lean ====
section
/-! DEFINITION. The machine's state: the framebuffer, the lifecycle state, the Configuration, the font, the trace of
host events, the refusal mark, and the model's own inputs and output. -/

namespace Sys2Proof.Machine

/-- A GPIO level (00_scope.md R18). -/
inductive Level where
  | low
  | high
  deriving DecidableEq, Repr

/-- A control line: data/command select or reset (00_scope.md R10). -/
inductive Line where
  | dc
  | rst
  deriving DecidableEq, Repr

/-- A host event (10_state.md R35), its line by name (log 13). -/
inductive HostEvent where
  | gpioWrite (line : Line) (level : Level)
  | busTransmit (bytes : List Byte) (ok : Bool)
  | delay (ms : Nat)
  deriving DecidableEq, Repr

/-- `LC` (10_state.md R23). -/
inductive Lifecycle where
  | uninitialized
  | initializing
  | ready
  | deinitializing
  deriving DecidableEq, Repr

/-- The result codes (60_exceptions.md R281). -/
inductive ResultCode where
  | ok
  | transportFail
  deriving DecidableEq, Repr

/-- What a finished request hands back (60_exceptions.md R281; 30_encoding.md R81, R85). -/
inductive Ret where
  | none
  | bool (b : Bool)
  | code (c : ResultCode)
  | bytes (bs : List Byte)
  deriving DecidableEq, Repr

/-- Why the machine stops. The block has no fault of its own (60_exceptions.md R280). -/
inductive Fault where
  /-- A request is issued while `LC` is transient: a re-entry from a host capability, which has no move
  (60_exceptions.md R291, 92_eei_decisions.md D41). Raised by `step`. UNSAFE as a description of the real
  block, which has no defence there (log 10). -/
  | reentrantRequest
  deriving DecidableEq, Repr

/-- The model's verdicts on issues it gives no meaning (60_exceptions.md R284). -/
inductive Refusal where
  /-- An instruction without a meaning in `exec`. SAFE. No arm raises it. -/
  | notModelled (mnemonic : String)
  /-- `UNKNOWN_REQUEST` (30_encoding.md R87). Raised by `step`. SAFE. -/
  | unknownRequest
  /-- `FORMATTED_STRING_NOT_MODELLED` (30_encoding.md R87). Raised by `step`. SAFE. -/
  | formattedStringNotModelled
  /-- `OPERAND_RANGE` (30_encoding.md R86). Raised by the pixel, drawing and text requests. SAFE. -/
  | operandRange
  /-- `ALIAS` (20_memory.md R64). Raised by DRAW_BITMAP, DRAW_STRING and DRAW_STRING_N. SAFE. -/
  | operandSharesFb
  /-- `NOT_READY` (44_sequencer.md R255, R260). Raised by DISPLAY and SEND_COMMAND. SAFE. -/
  | notReady
  /-- `CONFIG` (70_reset_and_hazards.md R310). Raised by `construct`. SAFE. -/
  | config
  /-- Command bytes that spell no command, `INVALID` (30_encoding.md R79). Raised by `step`. SAFE. -/
  | invalidCommand
  /-- A record whose operands are cut short or spell nothing in the model's layout (log 9). Raised by
  `step`. SAFE. -/
  | malformedRecord
  deriving DecidableEq, Repr

/-- The bytes of `FB`: rising addresses, only bytes that differ from the reset contents 0 (10_state.md R36). -/
abbrev Memory := List Host.Cell

/-- The state. `fb`, `lc`, `cfg`, `font`, `trace` and `refusalMark` are the spec's (10_state.md R20;
70_reset_and_hazards.md R311); `ret`, `inbox`, `busAnswers` and `draws` are the model's own (logs 2, 5, 6). -/
structure State where
  /-- `CFG`, read-only (10_state.md R28). -/
  cfg : Cfg
  /-- `FONT`, byte `g × GLYPH_W + c` being column `c` of glyph `g`, read-only (00_scope.md R12). -/
  font : List Byte
  /-- `FB` (10_state.md R21). -/
  fb : Memory
  /-- `LC` (10_state.md R23). -/
  lc : Lifecycle
  /-- `T`, oldest event first (10_state.md R35). -/
  trace : List HostEvent
  /-- The refusal mark (60_exceptions.md R284). -/
  refusalMark : Option Refusal
  /-- What the last finished request handed back. -/
  ret : Ret
  /-- The issues the application will make, oldest first. -/
  inbox : List Issue
  /-- Answers the host has already decided to give to transmissions, oldest first. -/
  busAnswers : List Bool
  /-- How many free values have been taken. -/
  draws : Nat
  deriving DecidableEq, Repr

/-- The state a construction produces (10_state.md R36, 70_reset_and_hazards.md R311). The model's own
fields start empty: DESIGN CHOICE (logs 2, 5, 6). -/
def State.constructed (cfg : Cfg) (font : List Byte) : State where
  cfg := cfg
  font := font
  fb := []
  lc := .uninitialized
  trace := []
  refusalMark := none
  ret := .none
  inbox := []
  busAnswers := []
  draws := 0

/-- The state after reset: the construction on the reference configuration. -/
def State.reset : State := .constructed Cfg.reference referenceFont

end Sys2Proof.Machine
end

