-- ==== Sys2Proof/Machine/Flags.lean ====
section
/-! DEFINITION. The block has no condition codes (10_state.md R27). Here are its one flag, the result code, and the
predicates on `LC`. -/

namespace Sys2Proof.Machine

/-- The `initialized` flag (10_state.md R27). -/
def State.initialized (s : State) : Bool := decide (s.lc = .ready)

/-- `LC` has a value it may have between requests (10_state.md R24). -/
def Lifecycle.stable : Lifecycle → Bool
  | .uninitialized => true
  | .initializing => false
  | .ready => true
  | .deinitializing => false

/-- `OK` or `TRANSPORT_FAIL` (60_exceptions.md R281). -/
def codeOf (ok : Bool) : ResultCode := if ok then .ok else .transportFail

end Sys2Proof.Machine
end

