-- ==== Sys2Proof/Machine/Ops.lean ====
section
/-! DEFINITION. The shared operations: reading and writing `FB`, plotting, and the host port. The block has no
exceptions, so there is no exception entry and no return from one (60_exceptions.md R280, R289). -/

namespace Sys2Proof.Machine

/-! ## Framebuffer memory -/

/-- What an unlisted byte of `FB` reads as: its reset contents (10_state.md R36). -/
def Memory.unlisted : Byte := 0

/-- The canonical form: rising addresses, no entry equal to what an unlisted address reads as. -/
abbrev Memory.wf (m : Memory) : Prop :=
  m.Pairwise (fun c d => c.1 < d.1) ∧ ∀ c ∈ m, c.2 ≠ Memory.unlisted

/-- `FB[a]` (00_scope.md R17). -/
def Memory.read : Memory → Nat → Byte
  | [], _ => Memory.unlisted
  | (k, v) :: m, a => if k = a then v else Memory.read m a

/-- `FB[a] <- v` (00_scope.md R17), keeping the canonical form. -/
def Memory.write : Memory → Nat → Byte → Memory
  | [], a, v => if v = Memory.unlisted then [] else [(a, v)]
  | (k, w) :: m, a, v =>
    if a < k then if v = Memory.unlisted then (k, w) :: m else (a, v) :: (k, w) :: m
    else if a = k then if v = Memory.unlisted then m else (a, v) :: m
    else (k, w) :: Memory.write m a v

/-- `FB[a], …, FB[a + n − 1]`. -/
def Memory.bytes (m : Memory) (a n : Nat) : List Byte := (List.range n).map fun k => Memory.read m (a + k)

/-! ## Pixels -/

/-- `inBounds(x, y)` (41_framebuffer.md R153). -/
def inBounds (cfg : Cfg) (x y : Int) : Bool :=
  decide (0 ≤ x ∧ x < cfg.width) && decide (0 ≤ y ∧ y < cfg.height)

/-- `FBI(x, y) = (y div 8) × W + x` (20_memory.md R51). -/
def fbIndex (cfg : Cfg) (x y : Int) : Nat := (y / 8 * cfg.width + x).toNat

/-- `FBB(y) = y mod 8` (20_memory.md R51). -/
def fbBit (y : Int) : Nat := (y % 8).toNat

/-- The byte `v` with bit `b` set or cleared (41_framebuffer.md R150). -/
def putBit (v : Byte) (b : Nat) (color : Bool) : Byte :=
  if color then v ||| 1#8 <<< b else v &&& (0xFF#8 - 1#8 <<< b)

/-- `SET_PIXEL`'s effect on `FB` (41_framebuffer.md R150), the only writer the drawing requests use. -/
def putPixel (cfg : Cfg) (fb : Memory) (x y : Int) (color : Bool) : Memory :=
  if inBounds cfg x y then
    let i := fbIndex cfg x y
    Memory.write fb i (putBit (Memory.read fb i) (fbBit y) color)
  else fb

/-- `GET_PIXEL`'s answer (41_framebuffer.md R151). Out of bounds, where it is `false`, no source shows it
(60_exceptions.md R285). UNVERIFIED (log 16). -/
def pixelAt (cfg : Cfg) (fb : Memory) (x y : Int) : Bool :=
  inBounds cfg x y && bitAt (Memory.read fb (fbIndex cfg x y)) (fbBit y)

/-- The pixels written one after another in one colour. -/
def putPixels (cfg : Cfg) (color : Bool) (fb : Memory) (ps : List Pixel) : Memory :=
  ps.foldl (fun m p => putPixel cfg m p.1 p.2 color) fb

/-! ## State updates -/

/-- Writes `FB`. -/
def State.setFb (s : State) (fb : Memory) : State := { s with fb := fb }

/-- `LC <- lc` (00_scope.md R17). -/
def State.setLc (s : State) (lc : Lifecycle) : State := { s with lc := lc }

/-- `return v` (00_scope.md R17). -/
def State.setRet (s : State) (r : Ret) : State := { s with ret := r }

/-- Appends an event to the trace (00_scope.md R17). -/
def State.emit (s : State) (e : HostEvent) : State := { s with trace := s.trace ++ [e] }

/-- Takes the issue at the head of `inbox` away. -/
def State.setInbox (s : State) (inbox : List Issue) : State := { s with inbox := inbox }

/-- Sets the refusal mark; `S` and `T` stay (60_exceptions.md R284). -/
def State.markRefused (s : State) (r : Refusal) : State := { s with refusalMark := some r }

/-- Counts one free value as taken. -/
def State.countDraw (s : State) : State := { s with draws := s.draws + 1 }

/-- Takes the host's next decided answer away. -/
def State.setAnswers (s : State) (answers : List Bool) : State := { s with busAnswers := answers }

/-! ## Host port (44_sequencer.md R240 to R244) -/

/-- The host's answer to the next transmission, a draw (00_scope.md R15): the next decided answer, or a
free value (log 5). -/
def State.takeAnswer (s : State) : State × Bool :=
  match s.busAnswers with
  | ok :: rest => (s.setAnswers rest, ok)
  | [] => (s.countDraw, Config.busAnswer s.draws)

/-- `GpioWrite`, skipped without the capability (R243). -/
def gpioWrite (line : Line) (level : Level) (s : State) : State :=
  if s.cfg.hasGpio then s.emit (.gpioWrite line level) else s

/-- `Delay(RESET_DELAY_MS)`, skipped without the capability (R243, R244). -/
def delay (s : State) : State := if s.cfg.hasDelay then s.emit (.delay s.cfg.resetDelayMs) else s

/-- `Transmit(bytes)` (R241); without a bus nothing happens and it counts as a success (R243). -/
def transmit (bytes : List Byte) (s : State) : State × Bool :=
  if s.cfg.hasBus then
    let (s', ok) := s.takeAnswer
    (s'.emit (.busTransmit bytes ok), ok)
  else (s, true)

/-- One transmission with its framing: the level of the data/command line and the bytes. -/
structure Frame where
  level : Level
  bytes : List Byte
  deriving DecidableEq, Repr

/-- Command framing (R240) of a command term. -/
def commandFrame (cfg : Cfg) (cmd : Command) : Frame := ⟨.low, cmd.encode cfg.cmds⟩

/-- Data framing (R242). -/
def dataFrame (bytes : List Byte) : Frame := ⟨.high, bytes⟩

/-- `SendCommand` or `SendData` (R240, R242): the data/command line is written immediately before the
transmission. -/
def sendFrame (f : Frame) (s : State) : State × Bool := transmit f.bytes (gpioWrite .dc f.level s)

/-- Every frame in order, whatever the answers; whether all succeeded (R245, R246). -/
def sendAll : List Frame → State → State × Bool
  | [], s => (s, true)
  | f :: fs, s =>
    let (s', ok) := sendFrame f s
    let (s'', oks) := sendAll fs s'
    (s'', ok && oks)

/-- The frames in order up to the first failure (R255, R257). -/
def sendUntilFailure : List Frame → State → State × Bool
  | [], s => (s, true)
  | f :: fs, s =>
    let (s', ok) := sendFrame f s
    if ok then sendUntilFailure fs s' else (s', false)

/-- `ResetPulse()` (R244). -/
def resetPulse (s : State) : State :=
  delay (gpioWrite .rst .high (delay (gpioWrite .rst .low s)))

end Sys2Proof.Machine
end

