-- ==== Sys2Proof/Machine/Operands.lean ====
section
/-! DEFINITION. The operands of requests: admission (30_encoding.md R86), bitmap bytes and bits (20_memory.md R54),
printable codes and glyph bytes (43_glyph_renderer.md R211, R212). -/

namespace Sys2Proof.Machine

/-- The quantities lie in `[COORD_MIN, COORD_MAX]` (00_scope.md R14). -/
def inRange (cfg : Cfg) (vs : List Int) : Bool := vs.all fun v => decide (cfg.coordMin ≤ v ∧ v ≤ cfg.coordMax)

/-- Runs an admitted request, or refuses it: `OPERAND_RANGE` before `ALIAS` (60_exceptions.md R284). -/
def whenAdmitted (inRange sharesFb : Bool) (run : Host.Outcome State Fault Refusal) :
    Host.Outcome State Fault Refusal :=
  if !inRange then .refused .operandRange
  else if sharesFb then .refused .operandSharesFb
  else run

/-- Admission of SET_PIXEL and GET_PIXEL (30_encoding.md R86). -/
def pixelAdmitted (cfg : Cfg) (x y : Int) : Bool := inRange cfg [x, y]

/-- Admission of DRAW_LINE (42_rasterizer.md R170). -/
def lineAdmitted (cfg : Cfg) (x0 y0 x1 y1 : Int) : Bool :=
  inRange cfg [x0, y0, x1, y1, |x1 - x0|, |y1 - y0|]

/-- Admission of DRAW_RECT (42_rasterizer.md R175). -/
def rectAdmitted (cfg : Cfg) (x y w h : Int) : Bool := inRange cfg [x, y, w, h, x + w - 1, y + h - 1]

/-- Admission of DRAW_CIRCLE (42_rasterizer.md R180). -/
def circleAdmitted (cfg : Cfg) (x0 y0 r : Int) : Bool :=
  inRange cfg [x0, y0, r, x0 + r, x0 - r, y0 + r, y0 - r, 2 * r + 1]

/-- `ceil8(w)` (00_scope.md R16). -/
def ceil8 (w : Int) : Int := (w + 7) / 8

/-- Admission of DRAW_BITMAP (42_rasterizer.md R185; 30_encoding.md R86). -/
def bitmapAdmitted (cfg : Cfg) (x y w h : Int) (bmp : ByteSeq) (size : Int) : Bool :=
  inRange cfg [x, y, w, h, size, x + w - 1, y + h - 1, h * ceil8 w] &&
    decide (0 ≤ size ∧ size ≤ bmp.data.length)

/-- Admission of DRAW_CHAR (43_glyph_renderer.md R210). -/
def charAdmitted (cfg : Cfg) (x y : Int) : Bool := inRange cfg [x, y, x + cfg.glyphW - 1, y + cfg.glyphH - 1]

/-- Admission of DRAW_STRING (43_glyph_renderer.md R215). -/
def stringAdmitted (cfg : Cfg) (x y : Int) (str : ByteSeq) : Bool :=
  inRange cfg [x, y, y + cfg.glyphH - 1, x + str.data.length * (cfg.glyphW + 1)]

/-- Admission of DRAW_STRING_N (43_glyph_renderer.md R216; 30_encoding.md R86). -/
def stringNAdmitted (cfg : Cfg) (x y : Int) (str : ByteSeq) (n : Int) : Bool :=
  stringAdmitted cfg x y str && inRange cfg [n] && decide (0 ≤ n)

/-- Bit `7 − k` of a byte: the MSB-first order of bitmaps and glyphs (20_memory.md R54, R55). -/
def msbBit (v : Byte) (k : Nat) : Bool := bitAt v (7 - k)

/-- The overrun guard stops at this index (42_rasterizer.md R185). -/
def pastGuard (guard : BlitGuard) (size : Int) (idx : Int) : Bool :=
  match guard with
  | .ge => decide (size ≤ idx)
  | .gt => decide (size < idx)

/-- `ByteAt(idx)` (42_rasterizer.md R186): byte `idx` of the operand below `size`, the draw at `size`. -/
def byteAt (bmp : List Byte) (size : Int) (overrun : Byte) (idx : Int) : Byte :=
  if idx < size then bmp.getD idx.toNat overrun else overrun

/-- `printable(ch)` (43_glyph_renderer.md R211). -/
def printable (cfg : Cfg) (ch : Byte) : Bool :=
  decide (cfg.firstChar ≤ ch.toNat ∧ ch.toNat ≤ cfg.lastChar)

/-- `FONT(g, c)` (43_glyph_renderer.md R212): the supplied byte; free where the table holds none (log 4). -/
def fontByte (cfg : Cfg) (font : List Byte) (g c : Nat) : Byte :=
  font.getD (g * cfg.glyphW + c) (Config.fontByte g c)

end Sys2Proof.Machine
end

