-- ==== Sys2Proof/Machine/Encoder.lean ====
section
/-! DEFINITION. The command encoder as a unit (40_command_encoder.md): each command row hands back `encode(cmd)`, pure
and total (R140, R141; log 6). Its bytes go on the bus only through SEND_COMMAND and the sequences. -/

namespace Sys2Proof.Machine

/-- One call of the encoder: the bytes are handed back, nothing else changes (R140, R141). -/
def runEncoder (cmd : Command) (s : State) : Host.Outcome State Fault Refusal :=
  .next (s.setRet (.bytes (cmd.encode s.cfg.cmds)))

/-- SET_DISPLAY_ON_OFF (R100). -/
def execSetDisplayOnOff (on : Nat) (s : State) : Host.Outcome State Fault Refusal :=
  runEncoder (.setDisplayOnOff on) s

/-- SET_DISPLAY_CLOCK (R101). -/
def execSetDisplayClock (div osc : Nat) (s : State) : Host.Outcome State Fault Refusal :=
  runEncoder (.setDisplayClock div osc) s

/-- SET_MULTIPLEX_RATIO (R102). -/
def execSetMultiplexRatio (ratio : Nat) (s : State) : Host.Outcome State Fault Refusal :=
  runEncoder (.setMultiplexRatio ratio) s

/-- SET_DISPLAY_OFFSET (R103). -/
def execSetDisplayOffset (offset : Nat) (s : State) : Host.Outcome State Fault Refusal :=
  runEncoder (.setDisplayOffset offset) s

/-- SET_DISPLAY_START_LINE (R104). -/
def execSetDisplayStartLine (line : Nat) (s : State) : Host.Outcome State Fault Refusal :=
  runEncoder (.setDisplayStartLine line) s

/-- SET_CHARGE_PUMP (R105). -/
def execSetChargePump (en : Nat) (s : State) : Host.Outcome State Fault Refusal :=
  runEncoder (.setChargePump en) s

/-- SET_MEMORY_ADDRESSING_MODE (R106). -/
def execSetMemoryAddressingMode (mode : Nat) (s : State) : Host.Outcome State Fault Refusal :=
  runEncoder (.setMemoryAddressingMode mode) s

/-- SET_CONTRAST (R107). -/
def execSetContrast (value : Nat) (s : State) : Host.Outcome State Fault Refusal :=
  runEncoder (.setContrast value) s

/-- SET_PAGE_ADDRESS (R108). -/
def execSetPageAddress (page : Nat) (s : State) : Host.Outcome State Fault Refusal :=
  runEncoder (.setPageAddress page) s

/-- SET_COLUMN_ADDRESS_LOW (R109). -/
def execSetColumnAddressLow (col : Nat) (s : State) : Host.Outcome State Fault Refusal :=
  runEncoder (.setColumnAddressLow col) s

/-- SET_COLUMN_ADDRESS_HIGH (R110). -/
def execSetColumnAddressHigh (col : Nat) (s : State) : Host.Outcome State Fault Refusal :=
  runEncoder (.setColumnAddressHigh col) s

/-- SET_SEGMENT_REMAP (R120). Extended, not shown by any source (30_encoding.md R77; log 8). -/
def execSetSegmentRemap (remap : Nat) (s : State) : Host.Outcome State Fault Refusal :=
  runEncoder (.setSegmentRemap remap) s

/-- SET_ENTIRE_DISPLAY_ON (R121). Extended, not shown by any source (30_encoding.md R77; log 8). -/
def execSetEntireDisplayOn (on : Nat) (s : State) : Host.Outcome State Fault Refusal :=
  runEncoder (.setEntireDisplayOn on) s

/-- SET_INVERSE_DISPLAY (R122). Extended, not shown by any source (30_encoding.md R77; log 8). -/
def execSetInverseDisplay (inv : Nat) (s : State) : Host.Outcome State Fault Refusal :=
  runEncoder (.setInverseDisplay inv) s

/-- SET_COM_SCAN_DIRECTION (R123). Extended, not shown by any source (30_encoding.md R77; log 8). -/
def execSetComScanDirection (dir : Nat) (s : State) : Host.Outcome State Fault Refusal :=
  runEncoder (.setComScanDirection dir) s

/-- SET_PRECHARGE_PERIOD (R124). Extended, not shown by any source (30_encoding.md R77; log 8). -/
def execSetPrechargePeriod (pre dis : Nat) (s : State) : Host.Outcome State Fault Refusal :=
  runEncoder (.setPrechargePeriod pre dis) s

/-- SET_VCOM_DESELECT_LEVEL (R125). Extended, not shown by any source (30_encoding.md R77; log 8). -/
def execSetVcomDeselectLevel (level : Nat) (s : State) : Host.Outcome State Fault Refusal :=
  runEncoder (.setVcomDeselectLevel level) s

/-- READ_MODIFY_WRITE (R126). Extended, not shown by any source (30_encoding.md R77; log 8). -/
def execReadModifyWrite (s : State) : Host.Outcome State Fault Refusal :=
  runEncoder .readModifyWrite s

/-- END_READ_MODIFY_WRITE (R127). Extended, not shown by any source (30_encoding.md R77; log 8). -/
def execEndReadModifyWrite (s : State) : Host.Outcome State Fault Refusal :=
  runEncoder .endReadModifyWrite s

/-- NOP (R128). Extended, not shown by any source (30_encoding.md R77; log 8). -/
def execNop (s : State) : Host.Outcome State Fault Refusal :=
  runEncoder .nop s

end Sys2Proof.Machine
end

