-- ==== Sys2Proof/Machine/FrameBuffer.lean ====
section
/-! DEFINITION. The framebuffer requests (41_framebuffer.md). Admitted in every lifecycle state, no host event. -/

namespace Sys2Proof.Machine

/-- SET_PIXEL (R150). -/
def execSetPixel (x y : Int) (color : Bool) (s : State) : Host.Outcome State Fault Refusal :=
  whenAdmitted (pixelAdmitted s.cfg x y) false
    (.next ((s.setFb (putPixel s.cfg s.fb x y color)).setRet .none))

/-- GET_PIXEL (R151). Its answer out of bounds is shown by no source (60_exceptions.md R285). UNVERIFIED (log 16). -/
def execGetPixel (x y : Int) (s : State) : Host.Outcome State Fault Refusal :=
  whenAdmitted (pixelAdmitted s.cfg x y) false (.next (s.setRet (.bool (pixelAt s.cfg s.fb x y))))

/-- CLEAR_FRAME_BUFFER (R152): every byte 0. -/
def execClearFrameBuffer (s : State) : Host.Outcome State Fault Refusal :=
  .next ((s.setFb []).setRet .none)

end Sys2Proof.Machine
end

