-- ==== Sys2Proof/Machine/Glyph.lean ====
section
/-! DEFINITION. The glyph and string renderers (43_glyph_renderer.md). -/

namespace Sys2Proof.Machine

/-- The pixels of one glyph column: the set bits of its byte `v`, bit 7 the top row (R210). -/
def glyphColumn (rows : Nat) (x y : Int) (v : Byte) : List Pixel :=
  ((List.range rows).filter fun r => msbBit v r).map fun (r : Nat) => (x, y + r)

/-- The pixels DRAW_CHAR lights, in order (R210); none for a code that is not printable (R211). -/
def glyphPixels (cfg : Cfg) (font : List Byte) (x y : Int) (ch : Byte) : List Pixel :=
  if printable cfg ch then
    (List.range cfg.glyphW).flatMap fun (c : Nat) =>
      glyphColumn cfg.glyphH (x + c) y (fontByte cfg font (ch.toNat - cfg.firstChar) c)
  else []

/-- DRAW_CHAR's effect on `FB` (R210). -/
def putGlyph (cfg : Cfg) (font : List Byte) (fb : Memory) (x y : Int) (ch : Byte) : Memory :=
  putPixels cfg true fb (glyphPixels cfg font x y ch)

/-- The string loop (R215), and with a limit the bounded one (R216), which tests the limit first. -/
def putString (cfg : Cfg) (font : List Byte) (y : Int) : List Byte → Option Nat → Int → Memory → Memory
  | _, some 0, _, fb => fb
  | [], _, _, fb => fb
  | ch :: rest, limit, cx, fb =>
    if ch = 0 then fb
    else if (cfg.width : Int) < cx + cfg.glyphW then fb
    else putString cfg font y rest (limit.map Nat.pred) (cx + cfg.glyphW + 1) (putGlyph cfg font fb cx y ch)

/-- DRAW_CHAR (R210). -/
def execDrawChar (x y : Int) (ch : Byte) (s : State) : Host.Outcome State Fault Refusal :=
  whenAdmitted (charAdmitted s.cfg x y) false
    (.next ((s.setFb (putGlyph s.cfg s.font s.fb x y ch)).setRet .none))

/-- DRAW_STRING (R215). -/
def execDrawString (x y : Int) (str : ByteSeq) (s : State) : Host.Outcome State Fault Refusal :=
  whenAdmitted (stringAdmitted s.cfg x y str) str.sharesFb
    (.next ((s.setFb (putString s.cfg s.font y str.data none x s.fb)).setRet .none))

/-- DRAW_STRING_N (R216). -/
def execDrawStringN (x y : Int) (str : ByteSeq) (n : Int) (s : State) : Host.Outcome State Fault Refusal :=
  whenAdmitted (stringNAdmitted s.cfg x y str n) str.sharesFb
    (.next ((s.setFb (putString s.cfg s.font y str.data (some n.toNat) x s.fb)).setRet .none))

end Sys2Proof.Machine
end

