-- ==== Sys2Proof/Machine/Raster.lean ====
section
/-! DEFINITION. The rasterizer (42_rasterizer.md): the pixels each shape visits, in plotting order, and the meanings
that plot them. -/

namespace Sys2Proof.Machine

/-! ## Line (R170) -/

/-- The loop of R170: `n` more columns from `x`. -/
def lineLoop (steep : Bool) (dx dy ystep : Int) : Nat → Int → Int → Int → List Pixel
  | 0, _, _, _ => []
  | n + 1, x, y, err =>
    (if steep then (y, x) else (x, y)) ::
      (if err - dy < 0 then lineLoop steep dx dy ystep n (x + 1) (y + ystep) (err - dy + dx)
      else lineLoop steep dx dy ystep n (x + 1) y (err - dy))

/-- R170 after the transposition: the endpoints in canonical order, then the loop. -/
def linePixelsFrom (steep : Bool) (x0 y0 x1 y1 : Int) : List Pixel :=
  let dx := x1 - x0
  lineLoop steep dx |y1 - y0| (if y0 < y1 then 1 else -1) (dx + 1).toNat x0 y0 (dx / 2)

/-- R170 after the transposition, endpoints swapped where `x0 > x1`. -/
def linePixelsOrdered (steep : Bool) (x0 y0 x1 y1 : Int) : List Pixel :=
  if x1 < x0 then linePixelsFrom steep x1 y1 x0 y0 else linePixelsFrom steep x0 y0 x1 y1

/-- The pixels DRAW_LINE visits, in order (R170). -/
def linePixels (x0 y0 x1 y1 : Int) : List Pixel :=
  if |x1 - x0| < |y1 - y0| then linePixelsOrdered true y0 x0 y1 x1 else linePixelsOrdered false x0 y0 x1 y1

/-- DRAW_LINE (R170). -/
def execDrawLine (x0 y0 x1 y1 : Int) (s : State) : Host.Outcome State Fault Refusal :=
  whenAdmitted (lineAdmitted s.cfg x0 y0 x1 y1) false
    (.next ((s.setFb (putPixels s.cfg true s.fb (linePixels x0 y0 x1 y1))).setRet .none))

/-! ## Rectangle (R175) -/

/-- The pixel of column `i`, row `j` is drawn: filled, or on an edge. -/
def rectDraws (w h : Int) (filled : Bool) (i j : Int) : Bool :=
  filled || decide (i = 0 ∨ i = w - 1 ∨ j = 0 ∨ j = h - 1)

/-- The pixels of row `j` of the rectangle. -/
def rectRow (x y w h : Int) (filled : Bool) (j : Nat) : List Pixel :=
  ((List.range w.toNat).filter fun (i : Nat) => rectDraws w h filled i j).map fun (i : Nat) => (x + i, y + j)

/-- The pixels DRAW_RECT visits, in order (R175); none when `w ≤ 0` or `h ≤ 0`. -/
def rectPixels (x y w h : Int) (filled : Bool) : List Pixel :=
  (List.range h.toNat).flatMap (rectRow x y w h filled)

/-- DRAW_RECT (R175). -/
def execDrawRect (x y w h : Int) (filled : Bool) (s : State) : Host.Outcome State Fault Refusal :=
  whenAdmitted (rectAdmitted s.cfg x y w h) false
    (.next ((s.setFb (putPixels s.cfg true s.fb (rectPixels x y w h filled))).setRet .none))

/-! ## Circle (R180) -/

/-- `plot8(a, b)` (R180). -/
def plot8 (x0 y0 a b : Int) : List Pixel :=
  [(x0 + a, y0 + b), (x0 - a, y0 + b), (x0 + a, y0 - b), (x0 - a, y0 - b),
    (x0 + b, y0 + a), (x0 - b, y0 + a), (x0 + b, y0 - a), (x0 - b, y0 - a)]

/-- The loop of R180, with the variables `f`, `ddx`, `ddy`, `x`, `y`. The first argument bounds the number
of rounds; `r` rounds are enough, since each brings `x` and `y` together by at least one. -/
def circleLoop (x0 y0 : Int) : Nat → Int → Int → Int → Int → Int → List Pixel
  | 0, _, _, _, _, _ => []
  | n + 1, f, ddx, ddy, x, y =>
    if x < y then
      if 0 ≤ f then
        plot8 x0 y0 (x + 1) (y - 1) ++
          circleLoop x0 y0 n (f + (ddy + 2) + (ddx + 2)) (ddx + 2) (ddy + 2) (x + 1) (y - 1)
      else
        plot8 x0 y0 (x + 1) y ++ circleLoop x0 y0 n (f + (ddx + 2)) (ddx + 2) ddy (x + 1) y
    else []

/-- The pixels DRAW_CIRCLE visits, in order (R180). -/
def circlePixels (x0 y0 r : Int) : List Pixel :=
  if r < 0 then [] else plot8 x0 y0 0 r ++ circleLoop x0 y0 r.toNat (1 - r) 1 (-2 * r) 0 r

/-- DRAW_CIRCLE (R180). -/
def execDrawCircle (x0 y0 r : Int) (s : State) : Host.Outcome State Fault Refusal :=
  whenAdmitted (circleAdmitted s.cfg x0 y0 r) false
    (.next ((s.setFb (putPixels s.cfg true s.fb (circlePixels x0 y0 r))).setRet .none))

/-! ## Bitmap blit (R185) -/

/-- One row of R185: `n` more columns from column `i`, the row's bytes from index `base`. The row is left
at the first index the guard stops at. -/
def bitmapRow (past : Int → Bool) (read : Int → Byte) (x y base : Int) : Nat → Nat → List Pixel
  | 0, _ => []
  | n + 1, i =>
    if past (base + (i / 8 : Nat)) then []
    else if msbBit (read (base + (i / 8 : Nat))) (i % 8) then
      (x + i, y) :: bitmapRow past read x y base n (i + 1)
    else bitmapRow past read x y base n (i + 1)

/-- The destination pixels of the set source bits DRAW_BITMAP reads, in order (R185, R186). `overrun` is
the byte drawn for index `size`. -/
def bitmapPixels (guard : BlitGuard) (x y w h : Int) (bmp : List Byte) (size : Int) (overrun : Byte) :
    List Pixel :=
  (List.range h.toNat).flatMap fun (j : Nat) =>
    bitmapRow (pastGuard guard size) (byteAt bmp size overrun) x (y + j) (j * ceil8 w) w.toNat 0

/-- The blit may read the byte at index `size`, so it takes a draw (R186). -/
def State.afterBlit (s : State) : State :=
  match s.cfg.blitGuard with
  | .ge => s
  | .gt => s.countDraw

/-- DRAW_BITMAP (R185). -/
def execDrawBitmap (x y w h : Int) (bmp : ByteSeq) (size : Int) (color : Bool) (s : State) :
    Host.Outcome State Fault Refusal :=
  whenAdmitted (bitmapAdmitted s.cfg x y w h bmp size) bmp.sharesFb
    (.next ((s.afterBlit.setFb (putPixels s.cfg color s.fb
      (bitmapPixels s.cfg.blitGuard x y w h bmp.data size (Config.overrunByte s.draws)))).setRet .none))

end Sys2Proof.Machine
end

