-- ==== Sys2Proof/Machine/Sequencer.lean ====
section
/-! DEFINITION. The sequencer requests (44_sequencer.md), the only ones that emit host events and write `LC`. -/

namespace Sys2Proof.Machine

/-- `INIT_SEQ` (R247). -/
def initSeq (cfg : Cfg) : List Command :=
  [.setDisplayOnOff 0,
    .setDisplayClock cfg.initClockDiv.toNat cfg.initClockOsc.toNat,
    .setMultiplexRatio (cfg.height - 1),
    .setDisplayOffset 0,
    .setDisplayStartLine 0,
    .setChargePump 1,
    .setDisplayOnOff 1]

/-- INITIALIZE up to its last transmission, `LC` still INITIALIZING; whether every answer was a success
(R245). -/
def initializeRun (s : State) : State × Bool :=
  sendAll ((initSeq s.cfg).map (commandFrame s.cfg)) (resetPulse (s.setLc .initializing))

/-- `LC` after a failed INITIALIZE: READY or UNINITIALIZED, a draw (R246). -/
def failedInitLc (ready : Bool) : Lifecycle := if ready then .ready else .uninitialized

/-- The end of INITIALIZE (R245, R246). -/
def initializeEnd (s : State) (allOk : Bool) : State :=
  if allOk then (s.setLc .ready).setRet (.code .ok)
  else (s.countDraw.setLc (failedInitLc (Config.readyAfterFailure s.draws))).setRet (.code .transportFail)

/-- INITIALIZE (R245). -/
def execInitialize (s : State) : Host.Outcome State Fault Refusal :=
  .next (initializeEnd (initializeRun s).1 (initializeRun s).2)

/-- DEINITIALIZE up to its transmission, `LC` still DEINITIALIZING (R250). -/
def deinitializeRun (s : State) : State × Bool :=
  sendFrame (commandFrame s.cfg (.setDisplayOnOff 0)) (resetPulse (s.setLc .deinitializing))

/-- DEINITIALIZE (R250). -/
def execDeinitialize (s : State) : Host.Outcome State Fault Refusal :=
  .next (((deinitializeRun s).1.setLc .uninitialized).setRet (.code (codeOf (deinitializeRun s).2)))

/-- The four transmissions of page `p` (R255). -/
def pageFrames (cfg : Cfg) (fb : Memory) (p : Nat) : List Frame :=
  [commandFrame cfg (.setPageAddress p), commandFrame cfg (.setColumnAddressLow 0),
    commandFrame cfg (.setColumnAddressHigh 0), dataFrame (Memory.bytes fb (p * cfg.width) cfg.width)]

/-- The transmissions of a whole flush, pages ascending (R255). -/
def flushFrames (cfg : Cfg) (fb : Memory) : List Frame := (List.range cfg.pages).flatMap (pageFrames cfg fb)

/-- The end of a request that reports its transmissions. -/
def reportOutcome (r : State × Bool) : Host.Outcome State Fault Refusal :=
  .next (r.1.setRet (.code (codeOf r.2)))

/-- Runs a request that needs `LC = READY`, or refuses it `NOT_READY` (R255, R260). -/
def whenReady (s : State) (run : Host.Outcome State Fault Refusal) : Host.Outcome State Fault Refusal :=
  if s.initialized then run else .refused .notReady

/-- DISPLAY (R255). -/
def execDisplay (s : State) : Host.Outcome State Fault Refusal :=
  whenReady s (reportOutcome (sendUntilFailure (flushFrames s.cfg s.fb) s))

/-- SEND_COMMAND (R260). -/
def execSendCommand (cmd : Command) (s : State) : Host.Outcome State Fault Refusal :=
  whenReady s (reportOutcome (sendFrame (commandFrame s.cfg cmd) s))

end Sys2Proof.Machine
end

