-- ==== Sys2Proof/Machine/Dispatch.lean ====
section
/-! DEFINITION. One arm per instruction. -/

namespace Sys2Proof.Machine

def exec (i : Instr) (s : State) : Host.Outcome State Fault Refusal :=
  match i with
  | .setDisplayOnOff on => Sys2Proof.Machine.execSetDisplayOnOff on s
  | .setDisplayClock div osc => Sys2Proof.Machine.execSetDisplayClock div osc s
  | .setMultiplexRatio ratio => Sys2Proof.Machine.execSetMultiplexRatio ratio s
  | .setDisplayOffset offset => Sys2Proof.Machine.execSetDisplayOffset offset s
  | .setDisplayStartLine line => Sys2Proof.Machine.execSetDisplayStartLine line s
  | .setChargePump en => Sys2Proof.Machine.execSetChargePump en s
  | .setMemoryAddressingMode mode => Sys2Proof.Machine.execSetMemoryAddressingMode mode s
  | .setContrast value => Sys2Proof.Machine.execSetContrast value s
  | .setPageAddress page => Sys2Proof.Machine.execSetPageAddress page s
  | .setColumnAddressLow col => Sys2Proof.Machine.execSetColumnAddressLow col s
  | .setColumnAddressHigh col => Sys2Proof.Machine.execSetColumnAddressHigh col s
  | .setSegmentRemap remap => Sys2Proof.Machine.execSetSegmentRemap remap s
  | .setEntireDisplayOn on => Sys2Proof.Machine.execSetEntireDisplayOn on s
  | .setInverseDisplay inv => Sys2Proof.Machine.execSetInverseDisplay inv s
  | .setComScanDirection dir => Sys2Proof.Machine.execSetComScanDirection dir s
  | .setPrechargePeriod pre dis => Sys2Proof.Machine.execSetPrechargePeriod pre dis s
  | .setVcomDeselectLevel level => Sys2Proof.Machine.execSetVcomDeselectLevel level s
  | .readModifyWrite => Sys2Proof.Machine.execReadModifyWrite s
  | .endReadModifyWrite => Sys2Proof.Machine.execEndReadModifyWrite s
  | .nop => Sys2Proof.Machine.execNop s
  | .setPixel x y color => Sys2Proof.Machine.execSetPixel x y color s
  | .getPixel x y => Sys2Proof.Machine.execGetPixel x y s
  | .clearFrameBuffer => Sys2Proof.Machine.execClearFrameBuffer s
  | .drawLine x0 y0 x1 y1 => Sys2Proof.Machine.execDrawLine x0 y0 x1 y1 s
  | .drawRect x y w h filled => Sys2Proof.Machine.execDrawRect x y w h filled s
  | .drawCircle x0 y0 r => Sys2Proof.Machine.execDrawCircle x0 y0 r s
  | .drawBitmap x y w h bmp size color => Sys2Proof.Machine.execDrawBitmap x y w h bmp size color s
  | .drawChar x y ch => Sys2Proof.Machine.execDrawChar x y ch s
  | .drawString x y str => Sys2Proof.Machine.execDrawString x y str s
  | .drawStringN x y str n => Sys2Proof.Machine.execDrawStringN x y str n s
  | .initializeDriver => Sys2Proof.Machine.execInitialize s
  | .deinitializeDriver => Sys2Proof.Machine.execDeinitialize s
  | .display => Sys2Proof.Machine.execDisplay s
  | .sendCommand cmd => Sys2Proof.Machine.execSendCommand cmd s

end Sys2Proof.Machine
end

