-- ==== Sys2Proof/Machine/Fetch.lean ====
section
/-! DEFINITION. Running one issue: decode it and execute the instruction, or refuse it by name. -/

namespace Sys2Proof.Machine

/-- The verdict on an issue that spells no instruction (60_exceptions.md R284; 30_encoding.md R79, R87). -/
def refusalOf (port : Port) : DecodeError → Refusal
  | .unknownRequest _ => .unknownRequest
  | .formattedString => .formattedStringNotModelled
  | .invalidCommand _ => .invalidCommand
  | .truncated =>
    match port with
    | .command => .invalidCommand
    | .request => .malformedRecord
    | .formatted => .malformedRecord
  | .badBoolean _ => .malformedRecord
  | .unknownTerm _ => .malformedRecord

/-- Runs the instruction an issue spells. Bytes after it are not read (log 9). -/
def runIssue (iss : Issue) (s : State) : Host.Outcome State Fault Refusal :=
  match decode s.cfg.cmds iss with
  | .ok (i, _) => exec i s
  | .error e => .refused (refusalOf iss.port e)

end Sys2Proof.Machine
end

