-- ==== Sys2Proof/Machine/Step.lean ====
section
/-! DEFINITION. One step: the next issue of the application is taken, decoded and run to completion (10_state.md R26;
log 1). -/

namespace Sys2Proof.Machine

/-- One step. A marked state has no step (60_exceptions.md R284). With `LC` transient a request would be a
re-entry, which has no move (R291; log 10). With no issue waiting nothing happens (log 2). -/
def step (s : State) : Host.Outcome State Fault Refusal :=
  match s.refusalMark with
  | some r => .refused r
  | none =>
    match s.inbox with
    | [] => .next s
    | iss :: rest => if s.lc.stable then runIssue iss (s.setInbox rest) else .fault .reentrantRequest

/-- `s` with the instruction of an opcode-table word as the next issue. -/
def State.withFetchWord (s : State) (nbits w : Nat) : State := s.setInbox (tableIssue nbits w :: s.inbox)

end Sys2Proof.Machine
end

