-- ==== Sys2Proof/Machine/Construct.lean ====
section
/-! DEFINITION. Construction, the block's only reset (70_reset_and_hazards.md R310). -/

namespace Sys2Proof.Machine

/-- A construction with a configuration and a font: refused `CONFIG` outside the legal values, otherwise the
state of R311. -/
def construct (cfg : Cfg) (font : List Byte) : Host.Outcome State Fault Refusal :=
  if cfg.legal then .next (.constructed cfg font) else .refused .config

end Sys2Proof.Machine
end

