-- ==== Sys2Proof/Machine/Observe.lean ====
section
/-! DEFINITION. What the outside sees: the host calls, the line levels, the framed byte stream, the commands it spells
(10_state.md R35; 30_encoding.md R78, R79), and the run of the machine with its refusal mark (60_exceptions.md R284). -/

namespace Sys2Proof.Machine

/-- The identifier the Configuration gives a control line (10_state.md R28). -/
def pinId (cfg : Cfg) : Line → Nat
  | .dc => cfg.dcPin
  | .rst => cfg.rstPin

/-- A capability call as the host receives it, with the context `CTX` (60_exceptions.md R291). -/
inductive HostCall where
  | gpioWrite (ctx pin : Nat) (level : Level)
  | busTransmit (ctx : Nat) (bytes : List Byte)
  | delay (ctx ms : Nat)
  deriving DecidableEq, Repr

/-- The host call behind an event. -/
def hostCall (cfg : Cfg) : HostEvent → HostCall
  | .gpioWrite line level => .gpioWrite cfg.ctx (pinId cfg line) level
  | .busTransmit bytes _ => .busTransmit cfg.ctx bytes
  | .delay ms => .delay cfg.ctx ms

/-- The level of a line after some events, from its level before them; `none` is unspecified
(10_state.md R33; 70_reset_and_hazards.md R311). -/
def levelAfter (line : Line) (before : Option Level) : List HostEvent → Option Level
  | [] => before
  | .gpioWrite l level :: es => levelAfter line (if l = line then some level else before) es
  | .busTransmit _ _ :: es => levelAfter line before es
  | .delay _ :: es => levelAfter line before es

/-- The level of a control line (70_reset_and_hazards.md R311). -/
def State.lineLevel (s : State) (line : Line) : Option Level := levelAfter line none s.trace

/-- A byte with its framing, `none` for `UNKNOWN` (10_state.md R35). -/
abbrev FramedByte := Option Level × Byte

/-- The byte stream of some events, the data/command line standing as given before them (10_state.md R35). -/
def byteStreamFrom (dc : Option Level) : List HostEvent → List FramedByte
  | [] => []
  | .gpioWrite l level :: es => byteStreamFrom (if l = .dc then some level else dc) es
  | .busTransmit bytes _ :: es => bytes.map (fun b => (dc, b)) ++ byteStreamFrom dc es
  | .delay _ :: es => byteStreamFrom dc es

/-- The byte stream of a trace (10_state.md R35). -/
def byteStream (es : List HostEvent) : List FramedByte := byteStreamFrom none es

/-- The bytes of a stream in one framing. -/
def framedBytes (level : Level) (bs : List FramedByte) : List Byte :=
  (bs.filter fun b => decide (b.1 = some level)).map Prod.snd

/-- How reading a command byte stream ended. -/
inductive Reading where
  /-- Every byte read. -/
  | complete
  /-- The stream ends inside a command; the spec gives no answer for it. DESIGN CHOICE (log 17). -/
  | unfinished
  /-- `INVALID(byte)`: unreadable from here on (30_encoding.md R79). -/
  | invalid (b : Byte)
  deriving DecidableEq, Repr

/-- The commands a command byte stream spells, at most `n` of them (30_encoding.md R78). A command the stream ends
inside is left out and the reading is `unfinished`. DESIGN CHOICE (log 17). -/
def readCommandsUpTo (T : CmdTable) : Nat → List Byte → List Command × Reading
  | 0, _ => ([], .unfinished)
  | n + 1, bs =>
    if bs.isEmpty then ([], .complete)
    else
      match decodeCommand T bs with
      | .ok (c, rest) =>
        let (cs, ending) := readCommandsUpTo T n rest
        (c :: cs, ending)
      | .error .truncated => ([], .unfinished)
      | .error _ => ([], .invalid (bs.headD 0))

/-- The commands a command byte stream spells (30_encoding.md R78): each takes at least one byte. -/
def readCommands (T : CmdTable) (bs : List Byte) : List Command × Reading :=
  readCommandsUpTo T (bs.length + 1) bs

/-- One step with the refusal mark set where it is refused: `S` and `T` stay, and no later issue clears the
mark (60_exceptions.md R284). -/
def advance (s : State) : State :=
  match step s with
  | .next s' => s'
  | .refused r => s.markRefused r
  | .fault _ => s

/-- `n` steps. -/
def advanceBy : Nat → State → State
  | 0, s => s
  | n + 1, s => advanceBy n (advance s)

end Sys2Proof.Machine
end

