-- ==== Sys2Proof/Safety.lean ====
section
/-! DEFINITION. The terms claims are made in: the invariant of every reachable state, the frames, and which
instructions are sequencer requests. -/

namespace Sys2Proof.Machine

/-- The event is one the block may emit under this configuration: a present capability, a non-empty
transmission, the reset delay (10_state.md R35; 44_sequencer.md R243, R244). -/
def eventAllowed (cfg : Cfg) : HostEvent → Prop
  | .gpioWrite _ _ => cfg.hasGpio = true
  | .busTransmit bytes _ => cfg.hasBus = true ∧ bytes ≠ []
  | .delay ms => cfg.hasDelay = true ∧ ms = cfg.resetDelayMs

/-- The invariant of the machine: a legal configuration with a whole font table, `FB` canonical and inside
its 0 .. FB_BYTES − 1 (10_state.md R21), `LC` stable (R24), every event allowed. -/
structure Inv (s : State) : Prop where
  legal : s.cfg.legal = true
  fontWhole : s.font.length = s.cfg.glyphCount * s.cfg.glyphW
  fbCanonical : Memory.wf s.fb
  fbInside : ∀ c ∈ s.fb, c.1 < s.cfg.fbBytes
  lcStable : s.lc.stable = true
  eventsAllowed : ∀ e ∈ s.trace, eventAllowed s.cfg e

/-- The families of the opcode table, by what they may touch. -/
inductive Family where
  /-- A call of the command encoder: touches nothing (40_command_encoder.md R140). -/
  | encoder
  /-- GET_PIXEL: reads `FB` (41_framebuffer.md R151). -/
  | pixelRead
  /-- A request that writes `FB` (10_state.md R21). -/
  | drawing
  /-- INITIALIZE and DEINITIALIZE, the two requests that write `LC` (10_state.md R23). -/
  | lifecycle
  /-- DISPLAY and SEND_COMMAND, which transmit and leave `LC`. -/
  | output
  deriving DecidableEq, Repr

/-- The family of an instruction. -/
def family : Instr → Family
  | .setDisplayOnOff _ => .encoder
  | .setDisplayClock _ _ => .encoder
  | .setMultiplexRatio _ => .encoder
  | .setDisplayOffset _ => .encoder
  | .setDisplayStartLine _ => .encoder
  | .setChargePump _ => .encoder
  | .setMemoryAddressingMode _ => .encoder
  | .setContrast _ => .encoder
  | .setPageAddress _ => .encoder
  | .setColumnAddressLow _ => .encoder
  | .setColumnAddressHigh _ => .encoder
  | .setSegmentRemap _ => .encoder
  | .setEntireDisplayOn _ => .encoder
  | .setInverseDisplay _ => .encoder
  | .setComScanDirection _ => .encoder
  | .setPrechargePeriod _ _ => .encoder
  | .setVcomDeselectLevel _ => .encoder
  | .readModifyWrite => .encoder
  | .endReadModifyWrite => .encoder
  | .nop => .encoder
  | .setPixel _ _ _ => .drawing
  | .getPixel _ _ => .pixelRead
  | .clearFrameBuffer => .drawing
  | .drawLine _ _ _ _ => .drawing
  | .drawRect _ _ _ _ _ => .drawing
  | .drawCircle _ _ _ => .drawing
  | .drawBitmap _ _ _ _ _ _ _ => .drawing
  | .drawChar _ _ _ => .drawing
  | .drawString _ _ _ => .drawing
  | .drawStringN _ _ _ _ => .drawing
  | .initializeDriver => .lifecycle
  | .deinitializeDriver => .lifecycle
  | .display => .output
  | .sendCommand _ => .output

/-! ## Frames -/

/-- `FB`, `LC`, `CFG`, `FONT` and `T` of `t` are those of `s`. -/
def sameMachine (s t : State) : Prop :=
  t.fb = s.fb ∧ t.lc = s.lc ∧ t.cfg = s.cfg ∧ t.font = s.font ∧ t.trace = s.trace

/-- Everything but `FB`, what was handed back and the count of free values is as in `s`: the frame of a
drawing request. -/
def frameOfDrawing (s t : State) : Prop :=
  t.lc = s.lc ∧ t.cfg = s.cfg ∧ t.font = s.font ∧ t.trace = s.trace ∧ t.refusalMark = s.refusalMark ∧
    t.inbox = s.inbox ∧ t.busAnswers = s.busAnswers

/-- Everything but `LC`, the trace, what was handed back and the host's answers is as in `s`: the frame of
a sequencer request. -/
def frameOfSequencer (s t : State) : Prop :=
  t.fb = s.fb ∧ t.cfg = s.cfg ∧ t.font = s.font ∧ t.refusalMark = s.refusalMark ∧ t.inbox = s.inbox

/-- Every byte of `FB` that holds none of the pixels reads as before. -/
def bytesOutsideKept (s t : State) (ps : List Pixel) : Prop :=
  ∀ a, (∀ p ∈ ps, inBounds s.cfg p.1 p.2 = true → fbIndex s.cfg p.1 p.2 ≠ a) →
    Memory.read t.fb a = Memory.read s.fb a

/-! ## Admission -/

/-- Every quantity lies in `[COORD_MIN, COORD_MAX]` (00_scope.md R14). -/
def Admitted (cfg : Cfg) (vs : List Int) : Prop := ∀ v ∈ vs, cfg.coordMin ≤ v ∧ v ≤ cfg.coordMax

/-- Some quantity lies outside `[COORD_MIN, COORD_MAX]`. -/
def Outside (cfg : Cfg) (vs : List Int) : Prop := ∃ v ∈ vs, v < cfg.coordMin ∨ cfg.coordMax < v

/-! ## What the host sees and answers -/

/-- The answer transmission number `k` from `s` on gets, counted from 0: a success without a bus
(44_sequencer.md R243), the host's decided answer, or a free value (R241; log 5). -/
def State.answer (s : State) (k : Nat) : Bool :=
  if s.cfg.hasBus then s.busAnswers.getD k (Config.busAnswer (s.draws + (k - s.busAnswers.length))) else true

/-- The capability behind the event is present (44_sequencer.md R243). -/
def eventPresent (cfg : Cfg) : HostEvent → Bool
  | .gpioWrite _ _ => cfg.hasGpio
  | .busTransmit _ _ => cfg.hasBus
  | .delay _ => cfg.hasDelay

/-- The events of a reset pulse (44_sequencer.md R244), those of absent capabilities skipped (R243). -/
def pulseEvents (cfg : Cfg) : List HostEvent :=
  [.gpioWrite .rst .low, .delay cfg.resetDelayMs, .gpioWrite .rst .high, .delay cfg.resetDelayMs].filter
    (eventPresent cfg)

/-- The events of one framed transmission (44_sequencer.md R240, R242), those of absent capabilities
skipped (R243). -/
def frameEvents (cfg : Cfg) (level : Level) (bytes : List Byte) (ok : Bool) : List HostEvent :=
  [.gpioWrite .dc level, .busTransmit bytes ok].filter (eventPresent cfg)

/-- The events of the framed transmissions of a list, from number `k` of `s` on, with the answers they get. -/
def transmissionEvents (s : State) : Nat → List (Level × List Byte) → List HostEvent
  | _, [] => []
  | k, f :: fs => frameEvents s.cfg f.1 f.2 (s.answer k) ++ transmissionEvents s (k + 1) fs

/-- Transmission number `k` of a flush (44_sequencer.md R255): per page the page address, column low 0,
column high 0, and the page's bytes. -/
def flushTransmission (cfg : Cfg) (fb : Memory) (k : Nat) : Level × List Byte :=
  let p := k / 4
  match k % 4 with
  | 0 => (.low, [cfg.cmds.pageAddress ||| BitVec.ofNat 8 (p % 16)])
  | 1 => (.low, [cfg.cmds.columnLow])
  | 2 => (.low, [cfg.cmds.columnHigh])
  | _ => (.high, (List.range cfg.width).map fun c => Memory.read fb (p * cfg.width + c))

/-- The first `n` transmissions of a flush. -/
def flushTransmissions (cfg : Cfg) (fb : Memory) (n : Nat) : List (Level × List Byte) :=
  (List.range n).map (flushTransmission cfg fb)

/-- The charge-pump bytes can be told apart from every other command and from each other: their first
bytes are in no row of 30_encoding.md R78's map, and neither sequence begins with the other. -/
def pumpReadable (off on : CpBytes) : Bool :=
  let free (b : Byte) : Bool :=
    (oneByteCommand (.withPump off on) b).isNone && (twoByteCommand (.withPump off on) b).isNone
  free (off.bytes.headD 0) && free (on.bytes.headD 0) &&
    !off.bytes.isPrefixOf on.bytes && !on.bytes.isPrefixOf off.bytes

/-- `FB` after the first `m` characters of `chars` are drawn one after another, glyph `k` with its left column
at `x + k × (GLYPH_W + 1)` (43_glyph_renderer.md R217). -/
def putGlyphs (cfg : Cfg) (font : List Byte) (fb : Memory) (x y : Int) (chars : List Byte) (m : Nat) : Memory :=
  (List.range m).foldl (fun fb (k : Nat) => putGlyph cfg font fb (x + k * (cfg.glyphW + 1)) y (chars.getD k 0)) fb

end Sys2Proof.Machine
end

