-- ==== Sys2Proof/Certificates/Slice0/Obligations.lean ====
section
/-! DEFINITION. The statements for the provers. Each docstring names the rules of the spec it formalises; where a
rule carries the spec's own mark "decision" or "derived", or a log entry fixes a convention, it says so. -/

open Sys2Proof Sys2Proof.Machine

/-! ## Construction, stepping, refusals -/

/-- Construction checks the configuration and produces the state of R311 with no host event (R310, R36; that an
illegal configuration is refused is the spec's decision D37). -/
def Obligations.ConstructionState : Prop :=
  ∀ (cfg : Cfg) (font : List Byte),
    (1 ≤ cfg.width ∧ cfg.width ≤ 128 ∧ 8 ≤ cfg.height ∧ cfg.height ≤ 128 ∧ cfg.height % 8 = 0 ∧
        1 ≤ cfg.glyphW ∧ 1 ≤ cfg.glyphH ∧ cfg.glyphH ≤ 8 ∧
        cfg.firstChar ≤ cfg.lastChar ∧ cfg.lastChar ≤ 255 →
      ∃ t, construct cfg font = .next t ∧ (∀ a, Memory.read t.fb a = 0) ∧ t.lc = .uninitialized ∧
        t.initialized = false ∧ t.cfg = cfg ∧ t.font = font ∧ t.trace = [] ∧ t.refusalMark = none ∧
        ∀ line, t.lineLevel line = none) ∧
    (cfg.width < 1 ∨ 128 < cfg.width ∨ cfg.height < 8 ∨ 128 < cfg.height ∨ cfg.height % 8 ≠ 0 ∨
        cfg.glyphW < 1 ∨ cfg.glyphH < 1 ∨ 8 < cfg.glyphH ∨ cfg.lastChar < cfg.firstChar ∨ 255 < cfg.lastChar →
      construct cfg font = .refused .config)

/-- Construction leaves a zero framebuffer, UNINITIALIZED, the configuration and font as supplied, and an empty trace;
the state after reset is such a construction (R36). -/
def Obligations.ConstructionLeavesZeroUninitialized : Prop :=
  (∀ (cfg : Cfg) (font : List Byte) (t : State), construct cfg font = .next t →
    (∀ a, Memory.read t.fb a = 0) ∧ t.lc = .uninitialized ∧ t.cfg = cfg ∧ t.font = font ∧ t.trace = []) ∧
  construct Cfg.reference referenceFont = .next State.reset

/-- The state after reset meets the invariant. The reference configuration's capabilities and free values are the
model's choice (logs 3, 4). -/
def Obligations.ResetMeetsInvariant : Prop := Inv State.reset

/-- Every step keeps the invariant: `FB` canonical and inside 0 .. FB_BYTES − 1, `LC` stable, only events of present
capabilities, the configuration legal and the font whole. -/
def Obligations.StepKeepsInvariant : Prop := ∀ s t : State, Inv s → step s = .next t → Inv t

/-- Where the next issue decodes to an instruction, a step is that instruction's meaning with the issue taken away.
The byte layout of an issue is the model's (log 9). -/
def Obligations.StepRunsDecodedInstruction : Prop :=
  ∀ (s : State) (iss : Issue) (rest : List Issue) (i : Instr) (left : List Byte),
    s.refusalMark = none → s.lc.stable = true → s.inbox = iss :: rest →
    decode s.cfg.cmds iss = .ok (i, left) → step s = exec i { s with inbox := rest }

/-- Where no instruction is run: nothing waiting leaves the state as it is, a marked state stays refused, a request
while `LC` is transient has no move. Model's choices, logs 2 and 10. -/
def Obligations.StepWithoutInstruction : Prop :=
  (∀ s : State, s.refusalMark = none → s.inbox = [] → step s = .next s) ∧
  (∀ (s : State) (r : Refusal), s.refusalMark = some r → step s = .refused r) ∧
  (∀ (s : State) (iss : Issue) (rest : List Issue), s.refusalMark = none → s.inbox = iss :: rest →
    (s.lc = .initializing ∨ s.lc = .deinitializing) → step s = .fault .reentrantRequest)

/-- A request identifier outside the table of R85 is refused UNKNOWN_REQUEST, the formatted-string request
FORMATTED_STRING_NOT_MODELLED (R87; the spec's decision D27). How an issue spells either is the model's (log 9). -/
def Obligations.UnknownRequestsRefused : Prop :=
  ∀ (s : State) (rest : List Issue), s.refusalMark = none → s.lc.stable = true →
    (∀ (id : Byte) (operands : List Byte), s.inbox = ⟨.request, id :: operands⟩ :: rest →
      id.toNat ∉ [0x01, 0x02, 0x03, 0x10, 0x11, 0x12, 0x13, 0x20, 0x21, 0x22, 0x30, 0x31, 0x32, 0x33] →
      step s = .refused .unknownRequest) ∧
    (∀ bytes : List Byte, s.inbox = ⟨.formatted, bytes⟩ :: rest → step s = .refused .formattedStringNotModelled)

/-- A command-framed first byte outside the map of R78 spells no command: the decoder answers INVALID for it, a reader
of the stream stops there, and an issue of it is refused (R79). The map's byte values are log 7's, and the name of the
refusal is the model's, log 9. -/
def Obligations.InvalidCommandBytesRefused : Prop :=
  ∀ (s : State) (off on : CpBytes) (b : Byte) (more : List Byte) (rest : List Issue),
    s.refusalMark = none → s.lc.stable = true → s.cfg.cmds = .withPump off on →
    s.inbox = ⟨.command, b :: more⟩ :: rest →
    b.toNat ∉ [0x81, 0xA0, 0xA1, 0xA4, 0xA5, 0xA6, 0xA7, 0xA8, 0xAE, 0xAF, 0xC0, 0xC8, 0xD3, 0xD5, 0xD9, 0xDB, 0xDC,
      0xE0, 0xE3, 0xEE] →
    ¬ b.toNat ≤ 0x17 → ¬ (0x20 ≤ b.toNat ∧ b.toNat ≤ 0x21) → ¬ (0xB0 ≤ b.toNat ∧ b.toNat ≤ 0xBF) →
    b ≠ off.bytes.headD 0 → b ≠ on.bytes.headD 0 →
    decode s.cfg.cmds ⟨.command, b :: more⟩ = .error (.invalidCommand b) ∧
    readCommands s.cfg.cmds (b :: more) = ([], .invalid b) ∧
    step s = .refused .invalidCommand

/-- A refusal changes nothing but the refusal mark, which holds the reason; it ends the run, and nothing clears the
mark (60_exceptions.md R284; the run of many steps is the model's, log 2). -/
def Obligations.RefusalMarksAndEndsRun : Prop :=
  ∀ (s : State) (r : Refusal), step s = .refused r →
    advance s = { s with refusalMark := some r } ∧ ∀ n, advanceBy n (advance s) = advance s

/-- No instruction ends in a fault: the block has no exceptions and no traps (60_exceptions.md R280). -/
def Obligations.InstructionsNeverFault : Prop := ∀ (i : Instr) (s : State) (f : Fault), exec i s ≠ .fault f

/-! ## Encodings -/

/-- A few words of the opcode table decode to their instructions (byte values log 7). That the word 0x12, also a
column-high byte, is read as a request is log 12's choice, and that its operand words are zero log 9's layout. The
charge-pump bytes of the reference table are open: that the rows of the map are read also where one of those bytes
coincides with them is log 15's choice. -/
def Obligations.TableWordsDecode : Prop :=
  decodeTableWord 8 0xAF = some (.setDisplayOnOff 1) ∧
  decodeTableWord 16 0xD5F1 = some (.setDisplayClock 1 15) ∧
  decodeTableWord 16 0x8180 = some (.setContrast 128) ∧
  decodeTableWord 8 0xB5 = some (.setPageAddress 5) ∧
  decodeTableWord 8 0xC8 = some (.setComScanDirection 1) ∧
  decodeTableWord 8 0x12 = some (.drawCircle 0 0 0) ∧
  decodeTableWord 8 0x32 = some .display

/-- Every well-formed encoder call is recovered from its bytes, whatever follows them: all twenty commands of R76
and R77, with every operand at every value of its field. R143 (e), derived there, says so of the core C1, C2 and C2P
commands; byte values are log 7's, the extended commands log 8's. The charge-pump command needs bytes that can be told
apart, since they are OPEN. The other commands are recovered whatever those bytes are: where one coincides with a row
of the map, that the row is read is the model's choice, log 15. -/
def Obligations.CommandBytesDecodeBack : Prop :=
  ∀ (off on : CpBytes) (c : Command) (rest : List Byte), (Instr.ofCommand c).wellFormed = true →
    (∀ e, c = .setChargePump e → pumpReadable off on = true) →
    decode (.withPump off on)
        ⟨.command, (encode (.withPump off on) (Instr.ofCommand c)).bytes ++ rest⟩ =
      .ok (Instr.ofCommand c, rest)

/-- Every well-formed request is recovered from its record. The record's byte layout is the model's (log 9), and its
identifiers are shown by no source (log 16). -/
def Obligations.RequestRecordsDecodeBack : Prop :=
  ∀ (T : CmdTable) (i : Instr), i.wellFormed = true → family i ≠ .encoder →
    decode T (encode T i) = .ok (i, [])

/-- A command is one or two bytes long, and an operand is cut to its field: `v` and `v mod 2^n` encode alike. -/
def Obligations.CommandsTruncateAndFit : Prop :=
  ∀ T : CmdTable,
    (∀ c : Command, (c.encode T).length = 1 ∨ (c.encode T).length = 2) ∧
    ∀ v w : Nat,
      Command.encode T (.setDisplayOnOff v) = Command.encode T (.setDisplayOnOff (v % 2)) ∧
      Command.encode T (.setDisplayClock v w) = Command.encode T (.setDisplayClock (v % 16) (w % 16)) ∧
      Command.encode T (.setMultiplexRatio v) = Command.encode T (.setMultiplexRatio (v % 128)) ∧
      Command.encode T (.setDisplayOffset v) = Command.encode T (.setDisplayOffset (v % 128)) ∧
      Command.encode T (.setDisplayStartLine v) = Command.encode T (.setDisplayStartLine (v % 128)) ∧
      Command.encode T (.setChargePump v) = Command.encode T (.setChargePump (v % 2)) ∧
      Command.encode T (.setMemoryAddressingMode v) = Command.encode T (.setMemoryAddressingMode (v % 2)) ∧
      Command.encode T (.setContrast v) = Command.encode T (.setContrast (v % 256)) ∧
      Command.encode T (.setPageAddress v) = Command.encode T (.setPageAddress (v % 16)) ∧
      Command.encode T (.setColumnAddressLow v) = Command.encode T (.setColumnAddressLow (v % 16)) ∧
      Command.encode T (.setColumnAddressHigh v) = Command.encode T (.setColumnAddressHigh (v % 8)) ∧
      Command.encode T (.setSegmentRemap v) = Command.encode T (.setSegmentRemap (v % 2)) ∧
      Command.encode T (.setEntireDisplayOn v) = Command.encode T (.setEntireDisplayOn (v % 2)) ∧
      Command.encode T (.setInverseDisplay v) = Command.encode T (.setInverseDisplay (v % 2)) ∧
      Command.encode T (.setComScanDirection v) = Command.encode T (.setComScanDirection (v % 2)) ∧
      Command.encode T (.setPrechargePeriod v w) = Command.encode T (.setPrechargePeriod (v % 16) (w % 16)) ∧
      Command.encode T (.setVcomDeselectLevel v) = Command.encode T (.setVcomDeselectLevel (v % 256))

/-- The field and the prefix of every one-byte command can be read back from its byte, for any table: the eight with a
field in the low bits, the scan direction with its field at bit 3, and the three without a field (40_command_encoder.md
R143 (c), derived there; the extended ones log 8). -/
def Obligations.OneByteCommandsKeepPrefixAndField : Prop :=
  ∀ (T : CmdTable) (v : Nat) (b : Byte),
    (Command.encode T (.setDisplayOnOff v) = [b] →
      b.toNat % 2 = v % 2 ∧ b.toNat - v % 2 = T.displayOnOff.toNat) ∧
    (Command.encode T (.setMemoryAddressingMode v) = [b] →
      b.toNat % 2 = v % 2 ∧ b.toNat - v % 2 = T.addressingMode.toNat) ∧
    (Command.encode T (.setPageAddress v) = [b] →
      b.toNat % 16 = v % 16 ∧ b.toNat - v % 16 = T.pageAddress.toNat) ∧
    (Command.encode T (.setColumnAddressLow v) = [b] →
      b.toNat % 16 = v % 16 ∧ b.toNat - v % 16 = T.columnLow.toNat) ∧
    (Command.encode T (.setColumnAddressHigh v) = [b] →
      b.toNat % 8 = v % 8 ∧ b.toNat - v % 8 = T.columnHigh.toNat) ∧
    (Command.encode T (.setSegmentRemap v) = [b] →
      b.toNat % 2 = v % 2 ∧ b.toNat - v % 2 = T.segmentRemap.toNat) ∧
    (Command.encode T (.setEntireDisplayOn v) = [b] →
      b.toNat % 2 = v % 2 ∧ b.toNat - v % 2 = T.entireDisplay.toNat) ∧
    (Command.encode T (.setInverseDisplay v) = [b] →
      b.toNat % 2 = v % 2 ∧ b.toNat - v % 2 = T.inverseDisplay.toNat) ∧
    (Command.encode T (.setComScanDirection v) = [b] →
      b.toNat / 8 % 2 = v % 2 ∧ b.toNat - v % 2 * 8 = T.comScan.toNat) ∧
    Command.encode T .readModifyWrite = [T.readModifyWrite] ∧
    Command.encode T .endReadModifyWrite = [T.endReadModifyWrite] ∧
    Command.encode T .nop = [T.noOperation]

/-- The bytes the eleven core commands hand back (R100 to R110). The byte values are general knowledge in the spec
(R75; log 7), and the charge-pump bytes are any (R105). Nothing but the handed-back value changes; where that value is kept is
log 6's. -/
def Obligations.CoreCommandBytes : Prop :=
  ∀ (s : State) (off on : CpBytes) (v w : Nat), s.cfg.cmds = .withPump off on →
    exec (.setDisplayOnOff v) s = .next { s with ret := .bytes [0xAE ||| BitVec.ofNat 8 (v % 2)] } ∧
    exec (.setDisplayClock v w) s =
      .next { s with ret := .bytes [0xD5, BitVec.ofNat 8 (w % 16) <<< 4 ||| BitVec.ofNat 8 (v % 16)] } ∧
    exec (.setMultiplexRatio v) s = .next { s with ret := .bytes [0xA8, BitVec.ofNat 8 (v % 128)] } ∧
    exec (.setDisplayOffset v) s = .next { s with ret := .bytes [0xD3, BitVec.ofNat 8 (v % 128)] } ∧
    exec (.setDisplayStartLine v) s = .next { s with ret := .bytes [0xDC, BitVec.ofNat 8 (v % 128)] } ∧
    exec (.setChargePump v) s =
      .next { s with ret := .bytes (if v % 2 = 1 then on.bytes else off.bytes) } ∧
    exec (.setMemoryAddressingMode v) s = .next { s with ret := .bytes [0x20 ||| BitVec.ofNat 8 (v % 2)] } ∧
    exec (.setContrast v) s = .next { s with ret := .bytes [0x81, BitVec.ofNat 8 (v % 256)] } ∧
    exec (.setPageAddress v) s = .next { s with ret := .bytes [0xB0 ||| BitVec.ofNat 8 (v % 16)] } ∧
    exec (.setColumnAddressLow v) s = .next { s with ret := .bytes [0x00 ||| BitVec.ofNat 8 (v % 16)] } ∧
    exec (.setColumnAddressHigh v) s = .next { s with ret := .bytes [0x10 ||| BitVec.ofNat 8 (v % 8)] }

/-- The bytes the nine extended commands hand back (R120 to R128), which no source shows (R77, R285; log 8).
Nothing but the handed-back value changes; where that value is kept is log 6's. -/
def Obligations.ExtendedCommandBytes : Prop :=
  ∀ (s : State) (off on : CpBytes) (v w : Nat), s.cfg.cmds = .withPump off on →
    exec (.setSegmentRemap v) s = .next { s with ret := .bytes [0xA0 ||| BitVec.ofNat 8 (v % 2)] } ∧
    exec (.setEntireDisplayOn v) s = .next { s with ret := .bytes [0xA4 ||| BitVec.ofNat 8 (v % 2)] } ∧
    exec (.setInverseDisplay v) s = .next { s with ret := .bytes [0xA6 ||| BitVec.ofNat 8 (v % 2)] } ∧
    exec (.setComScanDirection v) s = .next { s with ret := .bytes [0xC0 ||| BitVec.ofNat 8 (v % 2) <<< 3] } ∧
    exec (.setPrechargePeriod v w) s =
      .next { s with ret := .bytes [0xD9, BitVec.ofNat 8 (w % 16) <<< 4 ||| BitVec.ofNat 8 (v % 16)] } ∧
    exec (.setVcomDeselectLevel v) s = .next { s with ret := .bytes [0xDB, BitVec.ofNat 8 (v % 256)] } ∧
    exec .readModifyWrite s = .next { s with ret := .bytes [0xE0] } ∧
    exec .endReadModifyWrite s = .next { s with ret := .bytes [0xEE] } ∧
    exec .nop s = .next { s with ret := .bytes [0xE3] }

/-- The encoder is a pure function from command terms to bytes, given the command table: no part of `S` read or
written, no host event, no flag; only SEND_COMMAND and the three sequences put bytes on the bus (R140). That a command row is a call that hands its
bytes back is log 6's. -/
def Obligations.EncoderIsPureAndTotal : Prop :=
  (∀ c : Command, ∃ enc : CmdTable → List Byte,
    ∀ s : State, ∃ t, exec (Instr.ofCommand c) s = .next t ∧ t.ret = .bytes (enc s.cfg.cmds) ∧
      sameMachine s t ∧ t.initialized = s.initialized ∧ t.refusalMark = s.refusalMark ∧ t.inbox = s.inbox ∧
      t.busAnswers = s.busAnswers ∧ t.draws = s.draws) ∧
  ∀ (i : Instr) (s t : State), exec i s = .next t → t.trace ≠ s.trace →
    i = .initializeDriver ∨ i = .deinitializeDriver ∨ i = .display ∨ ∃ cmd, i = .sendCommand cmd

/-! ## Pixels -/

/-- SET_PIXEL (R150): in bounds exactly one bit of one byte is set or cleared, out of bounds nothing happens. The
lower bounds are the spec's decision D3 (R153), the operand range D2 (R86). -/
def Obligations.SetPixelWritesOneBit : Prop :=
  ∀ (s : State) (x y : Int) (color : Bool), Memory.wf s.fb → Admitted s.cfg [x, y] →
    (0 ≤ x → x < s.cfg.width → 0 ≤ y → y < s.cfg.height →
      ∃ t, exec (.setPixel x y color) s = .next t ∧ frameOfDrawing s t ∧ t.draws = s.draws ∧ t.ret = .none ∧
        (let i := (y / 8 * s.cfg.width + x).toNat
         let old := Memory.read s.fb i
         let bit := 1#8 <<< (y % 8).toNat
         Memory.read t.fb i = (if color then old ||| bit else old &&& (0xFF#8 - bit)) ∧
           ∀ a, a ≠ i → Memory.read t.fb a = Memory.read s.fb a)) ∧
    (x < 0 ∨ (s.cfg.width : Int) ≤ x ∨ y < 0 ∨ (s.cfg.height : Int) ≤ y →
      exec (.setPixel x y color) s = .next { s with ret := .none })

/-- GET_PIXEL (R151): the pixel's bit in bounds, `false` out of bounds (the spec's decision D26, shown by no source,
log 16), `FB` never written. -/
def Obligations.GetPixelReadsBit : Prop :=
  ∀ (s : State) (x y : Int), Admitted s.cfg [x, y] →
    (0 ≤ x → x < s.cfg.width → 0 ≤ y → y < s.cfg.height →
      exec (.getPixel x y) s = .next { s with
        ret := .bool (decide
          ((Memory.read s.fb (y / 8 * s.cfg.width + x).toNat).toNat / 2 ^ (y % 8).toNat % 2 = 1)) }) ∧
    (x < 0 ∨ (s.cfg.width : Int) ≤ x ∨ y < 0 ∨ (s.cfg.height : Int) ≤ y →
      exec (.getPixel x y) s = .next { s with ret := .bool false })

/-- CLEAR_FRAME_BUFFER, request `0x03`, zeroes the whole buffer, returns nothing and touches nothing else (R152). -/
def Obligations.ClearZeroesFrameBuffer : Prop :=
  (∀ T : CmdTable, encode T .clearFrameBuffer = ⟨.request, [0x03]⟩) ∧
  ∀ s : State, ∃ t, exec .clearFrameBuffer s = .next t ∧ frameOfDrawing s t ∧ t.draws = s.draws ∧
    t.ret = .none ∧ ∀ a, Memory.read t.fb a = 0

/-- After CLEAR_FRAME_BUFFER, GET_PIXEL answers `false` at every coordinate it admits (R156, derived there). -/
def Obligations.ClearedPixelsReadFalse : Prop :=
  ∀ (s t : State) (x y : Int), exec .clearFrameBuffer s = .next t → Admitted s.cfg [x, y] →
    exec (.getPixel x y) t = .next { t with ret := .bool false }

/-- Reading a pixel back after SET_PIXEL gives the colour written there and leaves every other pixel as it read
before (R154, derived there). -/
def Obligations.PixelReadsBackAfterWrite : Prop :=
  ∀ (s t : State) (x y : Int) (color : Bool), Inv s → exec (.setPixel x y color) s = .next t →
    (inBounds s.cfg x y = true → exec (.getPixel x y) t = .next { t with ret := .bool color }) ∧
    ∀ x' y', (x', y') ≠ (x, y) → pixelAt t.cfg t.fb x' y' = pixelAt s.cfg s.fb x' y'

/-- The map from in-bounds pixels to a byte of `FB` and a bit is a bijection (R22, derived there). -/
def Obligations.PixelLayoutIsBijective : Prop :=
  ∀ cfg : Cfg, cfg.legal = true →
    (∀ x y, inBounds cfg x y = true → fbIndex cfg x y < cfg.fbBytes ∧ fbBit y < 8) ∧
    (∀ x y x' y', inBounds cfg x y = true → inBounds cfg x' y' = true →
      fbIndex cfg x y = fbIndex cfg x' y' → fbBit y = fbBit y' → x = x' ∧ y = y') ∧
    ∀ i b, i < cfg.fbBytes → b < 8 → ∃ x y, inBounds cfg x y = true ∧ fbIndex cfg x y = i ∧ fbBit y = b

/-- SET_PIXEL requests on distinct pixels commute, and one made twice is the same as once (R157, derived there). -/
def Obligations.PixelWritesCommute : Prop :=
  ∀ (s a ab b ba aa : State) (x y x' y' : Int) (c c' : Bool), Inv s →
    exec (.setPixel x y c) s = .next a → exec (.setPixel x' y' c') a = .next ab →
    exec (.setPixel x' y' c') s = .next b → exec (.setPixel x y c) b = .next ba →
    exec (.setPixel x y c) a = .next aa →
    ((x, y) ≠ (x', y') → ab = ba) ∧ aa = a

/-! ## Admission -/

/-- A pixel, drawing or text request with an operand or a listed derived quantity outside [COORD_MIN, COORD_MAX], a
bitmap size outside its operand or a negative count is refused OPERAND_RANGE (R86; the spec's decision D2). The derived
quantities are those of each request's rule: R170, R175, R180, R185, R210, R215, R216. A bytes operand that also shares
storage with `FB` does not change the reason, by the order of R284 (the spec's decision D43; the sharing mark log 14). -/
def Obligations.OutOfRangeOperandsRefused : Prop :=
  ∀ (s : State) (x y u v n : Int) (w h size : Int) (color : Bool) (ch : Byte) (b : ByteSeq),
    (Outside s.cfg [x, y] → exec (.setPixel x y color) s = .refused .operandRange) ∧
    (Outside s.cfg [x, y] → exec (.getPixel x y) s = .refused .operandRange) ∧
    (Outside s.cfg [x, y, u, v, |u - x|, |v - y|] → exec (.drawLine x y u v) s = .refused .operandRange) ∧
    (Outside s.cfg [x, y, w, h, x + w - 1, y + h - 1] →
      exec (.drawRect x y w h color) s = .refused .operandRange) ∧
    (Outside s.cfg [x, y, n, x + n, x - n, y + n, y - n, 2 * n + 1] →
      exec (.drawCircle x y n) s = .refused .operandRange) ∧
    (Outside s.cfg [x, y, w, h, size, x + w - 1, y + h - 1, h * ((w + 7) / 8)] ∨ size < 0 ∨
        (b.data.length : Int) < size →
      exec (.drawBitmap x y w h b size color) s = .refused .operandRange) ∧
    (Outside s.cfg [x, y, x + s.cfg.glyphW - 1, y + s.cfg.glyphH - 1] →
      exec (.drawChar x y ch) s = .refused .operandRange) ∧
    (Outside s.cfg [x, y, y + s.cfg.glyphH - 1, x + b.data.length * (s.cfg.glyphW + 1)] →
      exec (.drawString x y b) s = .refused .operandRange) ∧
    (Outside s.cfg [x, y, n, y + s.cfg.glyphH - 1, x + b.data.length * (s.cfg.glyphW + 1)] ∨ n < 0 →
      exec (.drawStringN x y b n) s = .refused .operandRange)

/-- A request in range whose bitmap or string operand shares storage with `FB` is refused ALIAS (R64; the spec's
decision D25; that sharing is a mark on the operand is log 14's). -/
def Obligations.SharedStorageRefused : Prop :=
  ∀ (s : State) (x y w h size n : Int) (color : Bool) (b : ByteSeq), b.sharesFb = true →
    (Admitted s.cfg [x, y, w, h, size, x + w - 1, y + h - 1, h * ((w + 7) / 8)] → 0 ≤ size →
        size ≤ b.data.length →
      exec (.drawBitmap x y w h b size color) s = .refused .operandSharesFb) ∧
    (Admitted s.cfg [x, y, y + s.cfg.glyphH - 1, x + b.data.length * (s.cfg.glyphW + 1)] →
      exec (.drawString x y b) s = .refused .operandSharesFb ∧
      (Admitted s.cfg [n] → 0 ≤ n → exec (.drawStringN x y b n) s = .refused .operandSharesFb))

/-! ## Line, rectangle, circle -/

/-- DRAW_LINE lights the in-bounds pixels of its line and changes nothing else (R170; the algorithm is the spec's
decision D5, the colour D7). -/
def Obligations.DrawLineLightsItsPixels : Prop :=
  ∀ (s : State) (x0 y0 x1 y1 : Int), Inv s → Admitted s.cfg [x0, y0, x1, y1, |x1 - x0|, |y1 - y0|] →
    ∃ t, exec (.drawLine x0 y0 x1 y1) s = .next t ∧ frameOfDrawing s t ∧ t.draws = s.draws ∧ t.ret = .none ∧
      (∀ x y, pixelAt t.cfg t.fb x y = true ↔
        pixelAt s.cfg s.fb x y = true ∨ inBounds s.cfg x y = true ∧ (x, y) ∈ linePixels x0 y0 x1 y1) ∧
      bytesOutsideKept s t (linePixels x0 y0 x1 y1)

/-- The pixels of a line (R171, derived there): `max(|Δx|, |Δy|) + 1` of them, none twice, both endpoints among them,
each 8-adjacent to the one before, and none more than half a pixel from the ideal line. -/
def Obligations.LineVisitsDiscreteLineOnce : Prop :=
  ∀ x0 y0 x1 y1 : Int,
    let ps := linePixels x0 y0 x1 y1
    let longer := max |x1 - x0| |y1 - y0|
    (ps.length : Int) = longer + 1 ∧ ps.Nodup ∧ (x0, y0) ∈ ps ∧ (x1, y1) ∈ ps ∧
    (∀ k p q, ps[k]? = some p → ps[k + 1]? = some q → |q.1 - p.1| ≤ 1 ∧ |q.2 - p.2| ≤ 1 ∧ q ≠ p) ∧
    ∀ p ∈ ps, 2 * |(p.1 - x0) * (y1 - y0) - (p.2 - y0) * (x1 - x0)| ≤ longer

/-- DRAW_LINE from either end does the same (R172, derived there). -/
def Obligations.LineIsSymmetric : Prop :=
  ∀ (s : State) (x0 y0 x1 y1 : Int), exec (.drawLine x0 y0 x1 y1) s = exec (.drawLine x1 y1 x0 y0) s

/-- DRAW_RECT lights the in-bounds pixels of the filled region or of its outline, nothing for an empty region (R175;
the colour is the spec's decision D7, the outline of a one-pixel-wide region D32). -/
def Obligations.DrawRectLightsRegion : Prop :=
  ∀ (s : State) (x y w h : Int) (filled : Bool), Inv s →
    Admitted s.cfg [x, y, w, h, x + w - 1, y + h - 1] →
    ∃ t, exec (.drawRect x y w h filled) s = .next t ∧ frameOfDrawing s t ∧ t.draws = s.draws ∧ t.ret = .none ∧
      (∀ px py, pixelAt t.cfg t.fb px py = true ↔
        pixelAt s.cfg s.fb px py = true ∨
          inBounds s.cfg px py = true ∧ x ≤ px ∧ px < x + w ∧ y ≤ py ∧ py < y + h ∧
            (filled = true ∨ px = x ∨ px = x + w - 1 ∨ py = y ∨ py = y + h - 1)) ∧
      bytesOutsideKept s t (rectPixels x y w h filled)

/-- How many pixels a rectangle has (R176, derived there): `2w + 2h − 4` in an outline of both sides above 1, `w × h`
in a thin outline and in a filled rectangle, none twice. -/
def Obligations.RectPixelCount : Prop :=
  ∀ (x y w h : Int), 0 < w → 0 < h →
    (rectPixels x y w h false).Nodup ∧ (rectPixels x y w h true).Nodup ∧
    ((rectPixels x y w h true).length : Int) = w * h ∧
    (1 < w → 1 < h → ((rectPixels x y w h false).length : Int) = 2 * w + 2 * h - 4) ∧
    (w = 1 ∨ h = 1 → ((rectPixels x y w h false).length : Int) = w * h)

/-- DRAW_CIRCLE lights the in-bounds pixels of its outline and changes nothing else (R180; the variant is the spec's
decision D6, the colour D7). -/
def Obligations.DrawCircleLightsItsPixels : Prop :=
  ∀ (s : State) (x0 y0 r : Int), Inv s →
    Admitted s.cfg [x0, y0, r, x0 + r, x0 - r, y0 + r, y0 - r, 2 * r + 1] →
    ∃ t, exec (.drawCircle x0 y0 r) s = .next t ∧ frameOfDrawing s t ∧ t.draws = s.draws ∧ t.ret = .none ∧
      (∀ x y, pixelAt t.cfg t.fb x y = true ↔
        pixelAt s.cfg s.fb x y = true ∨ inBounds s.cfg x y = true ∧ (x, y) ∈ circlePixels x0 y0 r) ∧
      bytesOutsideKept s t (circlePixels x0 y0 r)

/-- The pixels of a circle (R180; R181 and R182, derived there): closed under the eight reflections, inside the square
of the radius, with the four axis points, one pixel for radius 0 and none below. For a positive radius they are exactly
the offsets whose longer part `b` is, for their shorter part `a`, the nearest to the ideal circle: the midpoint `b − ½`
lies inside it and `b + ½` does not. Their numbers are those of R182. -/
def Obligations.CircleIsEightWaySymmetric : Prop :=
  ∀ x0 y0 r : Int,
    (∀ dx dy, (x0 + dx, y0 + dy) ∈ circlePixels x0 y0 r →
      (x0 - dx, y0 + dy) ∈ circlePixels x0 y0 r ∧ (x0 + dx, y0 - dy) ∈ circlePixels x0 y0 r ∧
      (x0 - dx, y0 - dy) ∈ circlePixels x0 y0 r ∧ (x0 + dy, y0 + dx) ∈ circlePixels x0 y0 r ∧
      (x0 - dy, y0 + dx) ∈ circlePixels x0 y0 r ∧ (x0 + dy, y0 - dx) ∈ circlePixels x0 y0 r ∧
      (x0 - dy, y0 - dx) ∈ circlePixels x0 y0 r) ∧
    (∀ p ∈ circlePixels x0 y0 r, |p.1 - x0| ≤ r ∧ |p.2 - y0| ≤ r) ∧
    (0 ≤ r → (x0 + r, y0) ∈ circlePixels x0 y0 r) ∧
    (∀ p, p ∈ circlePixels x0 y0 0 ↔ p = (x0, y0)) ∧
    (r < 0 → circlePixels x0 y0 r = []) ∧
    (0 < r → ∀ dx dy, (x0 + dx, y0 + dy) ∈ circlePixels x0 y0 r ↔
      (let a := min |dx| |dy|
       let b := max |dx| |dy|
       a * a + b * (b - 1) < r * r ∧ r * r ≤ a * a + b * (b + 1))) ∧
    (circlePixels x0 y0 0).dedup.length = 1 ∧ (circlePixels x0 y0 1).dedup.length = 4 ∧
    (circlePixels x0 y0 2).dedup.length = 12 ∧ (circlePixels x0 y0 3).dedup.length = 16 ∧
    (circlePixels x0 y0 5).dedup.length = 28

/-! ## Bitmaps and glyphs -/

/-- DRAW_BITMAP (R185 to R188; the guard is the spec's decision D8): a destination pixel takes the colour exactly
where the source bit is set and its byte lies below `size`, or at `size` under the guard GT, where the byte is a free
value, one taken from the counter for each such blit (log 5; no source shows GT, log 16). Every other pixel stays. -/
def Obligations.DrawBitmapBlitsSetBits : Prop :=
  ∀ (s : State) (x y w h size : Int) (bmp : ByteSeq) (color : Bool), Inv s →
    Admitted s.cfg [x, y, w, h, size, x + w - 1, y + h - 1, h * ((w + 7) / 8)] →
    0 ≤ size → size ≤ bmp.data.length → bmp.sharesFb = false →
    ∃ t, exec (.drawBitmap x y w h bmp size color) s = .next t ∧ frameOfDrawing s t ∧ t.ret = .none ∧
      t.draws = (match s.cfg.blitGuard with
        | .ge => s.draws
        | .gt => s.draws + 1) ∧
      (∀ i j : Int, pixelAt t.cfg t.fb (x + i) (y + j) =
        (let idx := j * ((w + 7) / 8) + i / 8
         let byte := if idx < size then bmp.data.getD idx.toNat 0 else Config.overrunByte s.draws
         if inBounds s.cfg (x + i) (y + j) = true ∧ 0 ≤ i ∧ i < w ∧ 0 ≤ j ∧ j < h ∧
            (idx < size ∨ idx = size ∧ s.cfg.blitGuard = .gt) ∧
            byte.toNat / 2 ^ (7 - (i % 8).toNat) % 2 = 1
         then color else pixelAt s.cfg s.fb (x + i) (y + j))) ∧
      ∀ a, (∀ px py, x ≤ px → px < x + w → y ≤ py → py < y + h → inBounds s.cfg px py = true →
        fbIndex s.cfg px py ≠ a) → Memory.read t.fb a = Memory.read s.fb a

/-- DRAW_CHAR (R210, R213; that clear bits stay is the spec's decision D11): a printable code lights exactly the set
bits of its glyph, row `r` being bit `7 − r`; any other code does nothing. -/
def Obligations.DrawCharLightsGlyphBits : Prop :=
  ∀ (s : State) (x y : Int) (ch : Byte), Inv s →
    Admitted s.cfg [x, y, x + s.cfg.glyphW - 1, y + s.cfg.glyphH - 1] →
    (s.cfg.firstChar ≤ ch.toNat → ch.toNat ≤ s.cfg.lastChar →
      ∃ t, exec (.drawChar x y ch) s = .next t ∧ frameOfDrawing s t ∧ t.draws = s.draws ∧ t.ret = .none ∧
        (∀ px py, pixelAt t.cfg t.fb px py = true ↔
          pixelAt s.cfg s.fb px py = true ∨ inBounds s.cfg px py = true ∧
            ∃ c r : Nat, c < s.cfg.glyphW ∧ r < s.cfg.glyphH ∧ px = x + c ∧ py = y + r ∧
              ∃ v, s.font[(ch.toNat - s.cfg.firstChar) * s.cfg.glyphW + c]? = some v ∧
                v.toNat / 2 ^ (7 - r) % 2 = 1) ∧
        bytesOutsideKept s t (glyphPixels s.cfg s.font x y ch)) ∧
    (ch.toNat < s.cfg.firstChar ∨ s.cfg.lastChar < ch.toNat →
      exec (.drawChar x y ch) s = .next { s with ret := .none })

/-- A code is printable between FIRST_CHAR and LAST_CHAR; any other is drawn as nothing (R211). -/
def Obligations.NonPrintableDrawsNothing : Prop :=
  ∀ (s : State) (x y : Int) (ch : Byte),
    (printable s.cfg ch = true ↔ s.cfg.firstChar ≤ ch.toNat ∧ ch.toNat ≤ s.cfg.lastChar) ∧
    (ch.toNat < s.cfg.firstChar ∨ s.cfg.lastChar < ch.toNat →
      putGlyph s.cfg s.font s.fb x y ch = s.fb ∧
      ∀ t, exec (.drawChar x y ch) s = .next t → t = { s with ret := .none })

/-- Where a glyph stands on a page boundary, each of its visible columns is OR'd into the page bit-reversed (R214,
derived there). -/
def Obligations.GlyphColumnIsBitReversed : Prop :=
  ∀ (s t : State) (x y : Int) (ch : Byte) (c : Nat) (v : Byte), Inv s →
    exec (.drawChar x y ch) s = .next t → y % 8 = 0 → 0 ≤ y → y < s.cfg.height →
    s.cfg.firstChar ≤ ch.toNat → ch.toNat ≤ s.cfg.lastChar → c < s.cfg.glyphW → 0 ≤ x + c → x + c < s.cfg.width →
    s.font[(ch.toNat - s.cfg.firstChar) * s.cfg.glyphW + c]? = some v →
    ∀ b < 8, (Memory.read t.fb (y / 8 * s.cfg.width + (x + c)).toNat).getLsbD b =
      ((Memory.read s.fb (y / 8 * s.cfg.width + (x + c)).toNat).getLsbD b ||
        decide (b < s.cfg.glyphH) && v.getLsbD (7 - b))

/-- DRAW_STRING draws the first `m` characters, glyph `k` at `x + k × (GLYPH_W + 1)`, where `m` is the first place at
which the operand ends, a 0 byte stands, or the glyph would not fit (R215, R217; the stop test is the spec's decision
D13, the advance over non-printable codes D14). -/
def Obligations.DrawStringStopsAtTerminatorOrEdge : Prop :=
  ∀ (s : State) (x y : Int) (str : ByteSeq) (m : Nat), str.sharesFb = false →
    Admitted s.cfg [x, y, y + s.cfg.glyphH - 1, x + str.data.length * (s.cfg.glyphW + 1)] →
    (∀ k < m, k < str.data.length ∧ str.data.getD k 0 ≠ 0 ∧
      x + k * (s.cfg.glyphW + 1) + s.cfg.glyphW ≤ s.cfg.width) →
    (m = str.data.length ∨ str.data.getD m 0 = 0 ∨
      (s.cfg.width : Int) < x + m * (s.cfg.glyphW + 1) + s.cfg.glyphW) →
    exec (.drawString x y str) s =
      .next { s with fb := putGlyphs s.cfg s.font s.fb x y str.data m, ret := .none }

/-- DRAW_STRING_N does the same with the limit `n` as one more place to stop (R216, R217). -/
def Obligations.DrawStringNStopsAtLimit : Prop :=
  ∀ (s : State) (x y n : Int) (str : ByteSeq) (m : Nat), str.sharesFb = false →
    Admitted s.cfg [x, y, n, y + s.cfg.glyphH - 1, x + str.data.length * (s.cfg.glyphW + 1)] → 0 ≤ n →
    (m : Int) ≤ n →
    (∀ k < m, k < str.data.length ∧ str.data.getD k 0 ≠ 0 ∧
      x + k * (s.cfg.glyphW + 1) + s.cfg.glyphW ≤ s.cfg.width) →
    ((m : Int) = n ∨ m = str.data.length ∨ str.data.getD m 0 = 0 ∨
      (s.cfg.width : Int) < x + m * (s.cfg.glyphW + 1) + s.cfg.glyphW) →
    exec (.drawStringN x y str n) s =
      .next { s with fb := putGlyphs s.cfg s.font s.fb x y str.data m, ret := .none }

/-! ## Sequencer -/

/-- INITIALIZE sends the reset pulse and all seven commands whatever the answers, skipping absent capabilities; it
ends READY with OK if every answer was a success, else with TRANSPORT_FAIL and either stable state (R243 to R247; the
spec's decisions D18 to D21). -/
def Obligations.InitializeSendsWholeSequence : Prop :=
  ∀ s : State, ∃ t, exec .initializeDriver s = .next t ∧ frameOfSequencer s t ∧
    t.trace = s.trace ++ pulseEvents s.cfg ++ transmissionEvents s 0
      ([.setDisplayOnOff 0, .setDisplayClock s.cfg.initClockDiv.toNat s.cfg.initClockOsc.toNat,
        .setMultiplexRatio (s.cfg.height - 1), .setDisplayOffset 0, .setDisplayStartLine 0, .setChargePump 1,
        .setDisplayOnOff 1].map fun c => (Level.low, Command.encode s.cfg.cmds c)) ∧
    ((∀ k < 7, s.answer k = true) → t.lc = .ready ∧ t.ret = .code .ok) ∧
    ((∃ k < 7, s.answer k = false) →
      (t.lc = .ready ∨ t.lc = .uninitialized) ∧ t.ret = .code .transportFail)

/-- The 18 events of INITIALIZE with every capability present on the 128-row panel, byte for byte (R248, derived
there; byte values log 7). -/
def Obligations.InitializeTraceBytes : Prop :=
  ∀ (s t : State) (off on : CpBytes), s.cfg.cmds = .withPump off on → s.cfg.height = 128 →
    s.cfg.resetDelayMs = 100 → s.cfg.hasGpio = true → s.cfg.hasBus = true → s.cfg.hasDelay = true →
    exec .initializeDriver s = .next t →
    t.trace = s.trace ++
      [.gpioWrite .rst .low, .delay 100, .gpioWrite .rst .high, .delay 100,
        .gpioWrite .dc .low, .busTransmit [0xAE] (s.answer 0),
        .gpioWrite .dc .low, .busTransmit [0xD5, s.cfg.initClockOsc ++ s.cfg.initClockDiv] (s.answer 1),
        .gpioWrite .dc .low, .busTransmit [0xA8, 0x7F] (s.answer 2),
        .gpioWrite .dc .low, .busTransmit [0xD3, 0x00] (s.answer 3),
        .gpioWrite .dc .low, .busTransmit [0xDC, 0x00] (s.answer 4),
        .gpioWrite .dc .low, .busTransmit on.bytes (s.answer 5),
        .gpioWrite .dc .low, .busTransmit [0xAF] (s.answer 6)]

/-- The command bytes INITIALIZE sends spell, to a reader of the command stream, the init sequence in order (R78,
R247; byte values log 7). -/
def Obligations.InitializeStreamSpellsSequence : Prop :=
  ∀ (s t : State) (off on : CpBytes), s.cfg.cmds = .withPump off on → pumpReadable off on = true →
    8 ≤ s.cfg.height → s.cfg.height ≤ 128 → s.cfg.hasGpio = true → s.cfg.hasBus = true →
    exec .initializeDriver s = .next t →
    ∃ evs, t.trace = s.trace ++ evs ∧ framedBytes .high (byteStream evs) = [] ∧
      readCommands s.cfg.cmds (framedBytes .low (byteStream evs)) =
        ([.setDisplayOnOff 0, .setDisplayClock s.cfg.initClockDiv.toNat s.cfg.initClockOsc.toNat,
          .setMultiplexRatio (s.cfg.height - 1), .setDisplayOffset 0, .setDisplayStartLine 0, .setChargePump 1,
          .setDisplayOnOff 1], .complete)

/-- DEINITIALIZE: the reset pulse, then display-off; `LC` ends UNINITIALIZED whatever the answer, the result reports
it (R250; the spec's decision D23). -/
def Obligations.DeinitializePulsesAndSwitchesOff : Prop :=
  ∀ s : State, ∃ t, exec .deinitializeDriver s = .next t ∧ frameOfSequencer s t ∧ t.lc = .uninitialized ∧
    t.trace = s.trace ++ pulseEvents s.cfg ++
      frameEvents s.cfg .low (Command.encode s.cfg.cmds (.setDisplayOnOff 0)) (s.answer 0) ∧
    t.ret = .code (if s.answer 0 then .ok else .transportFail)

/-- DISPLAY in READY: the flush's transmissions in order up to the first failure, or all of them; the result says
which; `LC` and `FB` stay (R255, R257; the spec's decisions D22, D28). -/
def Obligations.DisplaySendsUntilFirstFailure : Prop :=
  ∀ s : State, s.lc = .ready →
    ((∀ k < 4 * (s.cfg.height / 8), s.answer k = true) →
      ∃ t, exec .display s = .next t ∧ frameOfSequencer s t ∧ t.lc = .ready ∧ t.ret = .code .ok ∧
        t.trace = s.trace ++
          transmissionEvents s 0 (flushTransmissions s.cfg s.fb (4 * (s.cfg.height / 8)))) ∧
    (∀ n < 4 * (s.cfg.height / 8), (∀ k < n, s.answer k = true) → s.answer n = false →
      ∃ t, exec .display s = .next t ∧ frameOfSequencer s t ∧ t.lc = .ready ∧ t.ret = .code .transportFail ∧
        t.trace = s.trace ++ transmissionEvents s 0 (flushTransmissions s.cfg s.fb (n + 1)))

/-- What a successful DISPLAY puts on the bus with every capability present: the data-framed bytes are exactly
`FB[0] .. FB[FB_BYTES − 1]` in index order, and the command-framed bytes spell, page after page, its page address and
column 0. The data bytes and the number of events are R256, derived there; the commands are those of R255 as R78 reads
them, the byte values log 7's. Where an OPEN charge-pump byte coincides with a row of the map, that the row is read is
the model's choice, log 15. -/
def Obligations.DisplayTransmitsFrameBuffer : Prop :=
  ∀ (s t : State) (off on : CpBytes), Inv s → s.cfg.cmds = .withPump off on → s.cfg.hasGpio = true →
    s.cfg.hasBus = true → exec .display s = .next t → t.ret = .code .ok →
    ∃ evs, t.trace = s.trace ++ evs ∧ evs.length = 8 * s.cfg.pages ∧
      framedBytes .high (byteStream evs) = Memory.bytes s.fb 0 s.cfg.fbBytes ∧
      readCommands s.cfg.cmds (framedBytes .low (byteStream evs)) =
        ((List.range s.cfg.pages).flatMap fun p =>
          [.setPageAddress p, .setColumnAddressLow 0, .setColumnAddressHigh 0], .complete)

/-- DISPLAY and SEND_COMMAND outside READY are refused NOT_READY (R255, R260; the spec's decision D24). -/
def Obligations.NotReadyRefused : Prop :=
  ∀ (s : State) (cmd : Command), s.lc ≠ .ready →
    exec .display s = .refused .notReady ∧ exec (.sendCommand cmd) s = .refused .notReady

/-- SEND_COMMAND in READY: one command-framed transmission, the result its answer, `LC` and `FB` as before (R240,
R260; the spec's decision D19). That a term of the extended set is admitted is the model's choice (log 8). -/
def Obligations.SendCommandTransmitsOnce : Prop :=
  ∀ (s : State) (cmd : Command), s.lc = .ready →
    ∃ t, exec (.sendCommand cmd) s = .next t ∧ frameOfSequencer s t ∧ t.lc = .ready ∧
      t.trace = s.trace ++ frameEvents s.cfg .low (cmd.encode s.cfg.cmds) (s.answer 0) ∧
      t.ret = .code (if s.answer 0 then .ok else .transportFail)

/-- Without a bus no request reports TRANSPORT_FAIL and none transmits (R243; the spec's decision D20). -/
def Obligations.AbsentBusNeverFails : Prop :=
  ∀ (i : Instr) (s t : State), s.cfg.hasBus = false → exec i s = .next t →
    t.ret ≠ .code .transportFail ∧
    ∃ evs, t.trace = s.trace ++ evs ∧ ∀ bytes ok, HostEvent.busTransmit bytes ok ∉ evs

/-- A transmission appends one event with the host's next answer and takes that answer; without a bus it appends
nothing and counts as a success. Nothing else changes, so nothing is retried or kept (R241). -/
def Obligations.TransmitRecordsAnswer : Prop :=
  ∀ (bytes : List Byte) (s : State),
    (s.cfg.hasBus = true →
      (transmit bytes s).2 = s.answer 0 ∧
      (transmit bytes s).1.trace = s.trace ++ [.busTransmit bytes (s.answer 0)] ∧
      (∀ k, (transmit bytes s).1.answer k = s.answer (k + 1)) ∧ frameOfSequencer s (transmit bytes s).1 ∧
      (transmit bytes s).1.lc = s.lc ∧ (transmit bytes s).1.ret = s.ret) ∧
    (s.cfg.hasBus = false → transmit bytes s = (s, true))

/-- The reset pulse changes no part of `S` beyond the transient `LC` its request sets, and does not clear `FB`: it
only appends its events (R312). -/
def Obligations.ResetPulseLeavesState : Prop :=
  ∀ (s : State) (lc : Lifecycle),
    resetPulse { s with lc := lc } = { s with lc := lc, trace := s.trace ++ pulseEvents s.cfg }

/-- While INITIALIZE and DEINITIALIZE run, `LC` has its transient value (R24): after the reset pulse, after every number
of transmissions, and at the end of the run, before the request sets its final value. These points lie inside a
request and are the model's reading of it, log 1. -/
def Obligations.TransientLifecycleDuringSequence : Prop :=
  ∀ s : State,
    (resetPulse (s.setLc .initializing)).lc = .initializing ∧
    (∀ n, (sendAll (((initSeq s.cfg).take n).map (commandFrame s.cfg)) (resetPulse (s.setLc .initializing))).1.lc =
      .initializing) ∧
    (initializeRun s).1.lc = .initializing ∧
    (resetPulse (s.setLc .deinitializing)).lc = .deinitializing ∧
    (deinitializeRun s).1.lc = .deinitializing

/-! ## The whole machine -/

/-- Host events are the only side effects and only the sequencer requests emit them: every other instruction leaves
the trace as it is, so none triggers a flush, a drawing request mutates the framebuffer only, and the rest not even
that (R59). What is handed back and the count of free values are the model's own fields (logs 5, 6). -/
def Obligations.OnlySequencerEmitsEvents : Prop :=
  ∀ (i : Instr) (s t : State), exec i s = .next t → family i ≠ .lifecycle → family i ≠ .output →
    t.trace = s.trace ∧ frameOfDrawing s t ∧ (family i ≠ .drawing → t.fb = s.fb ∧ t.draws = s.draws)

/-- `LC` has four values, and only INITIALIZE and DEINITIALIZE write it (R23). -/
def Obligations.OnlyLifecycleRequestsWriteLc : Prop :=
  (∀ lc : Lifecycle, lc = .uninitialized ∨ lc = .initializing ∨ lc = .ready ∨ lc = .deinitializing) ∧
  ∀ (i : Instr) (s t : State), exec i s = .next t → i ≠ .initializeDriver → i ≠ .deinitializeDriver → t.lc = s.lc

/-- The `initialized` flag is set only by an INITIALIZE that completed, and cleared only by DEINITIALIZE or an
INITIALIZE that saw a failure (R27). -/
def Obligations.InitializedFlagWriters : Prop :=
  ∀ (i : Instr) (s t : State), exec i s = .next t →
    (s.initialized = false → t.initialized = true → i = .initializeDriver) ∧
    (s.initialized = true → t.initialized = false →
      i = .deinitializeDriver ∨ i = .initializeDriver ∧ t.ret = .code .transportFail)

/-- The font table is read-only, never mutated (R30), and so is the Configuration. -/
def Obligations.ConfigurationNeverWritten : Prop :=
  ∀ (i : Instr) (s t : State), exec i s = .next t → t.cfg = s.cfg ∧ t.font = s.font

/-- The trace only grows (R35, R61). -/
def Obligations.TraceOnlyGrows : Prop :=
  ∀ s t : State, step s = .next t → ∃ evs, t.trace = s.trace ++ evs

/-- `FB` is written by the drawing requests alone: the sequencer requests, the reset pulse among them, GET_PIXEL and
the encoder leave every byte of it (R21, R312). -/
def Obligations.OnlyDrawingWritesFrameBuffer : Prop :=
  ∀ (i : Instr) (s t : State), exec i s = .next t → family i ≠ .drawing →
    t.fb = s.fb ∧ ∀ a, Memory.read t.fb a = Memory.read s.fb a

/-- Pixel, drawing and encoder calls neither read nor write `LC`: whatever it is, they do the same. For the pixel and
drawing requests the preambles of 41_framebuffer.md, 42_rasterizer.md and 43_glyph_renderer.md say so (the spec's
decision D24), for the encoder R140 (that a command row is an encoder call is log 6's). -/
def Obligations.DrawingIgnoresLifecycle : Prop :=
  ∀ (i : Instr) (s : State) (lc : Lifecycle), family i ≠ .lifecycle → family i ≠ .output →
    (∀ t, exec i s = .next t → exec i { s with lc := lc } = .next { t with lc := lc }) ∧
    (∀ r, exec i s = .refused r → exec i { s with lc := lc } = .refused r)
end

