-- ==== Sys2Proof/Laws/Pixel.lean ====
section
/-! SUPPORT. The laws of pixels: where a pixel lives, what writing one does, and what writing many does. -/

namespace Sys2Proof.Machine

/-! ## One byte -/

theorem ones_sub_bit (b : Nat) (hb : b < 8) : 0xFF#8 - 1#8 <<< b = ~~~(1#8 <<< b) := by
  interval_cases b <;> decide

theorem bit_getLsbD (b k : Nat) (hb : b < 8) : (1#8 <<< b).getLsbD k = decide (k = b) := by
  by_cases hk : k < 8
  · interval_cases b <;> interval_cases k <;> decide
  · rw [BitVec.getLsbD_of_ge _ _ (by omega)]
    simp; omega

/-- Setting or clearing one bit changes that bit alone. -/
theorem bitAt_putBit (v : Byte) {b k : Nat} (color : Bool) (hb : b < 8) (hk : k < 8) :
    bitAt (putBit v b color) k = if k = b then color else bitAt v k := by
  cases color with
  | true =>
    simp only [putBit, bitAt, if_true, BitVec.getLsbD_or, bit_getLsbD b k hb]
    by_cases h : k = b <;> simp [h]
  | false =>
    have hk' : k < 8 := hk
    simp only [putBit, bitAt, Bool.false_eq_true, if_false, ones_sub_bit b hb, BitVec.getLsbD_and,
      BitVec.getLsbD_not, bit_getLsbD b k hb]
    by_cases h : k = b <;> simp [h, hk']

theorem byte_eq_of_bits {v w : Byte} (h : ∀ k < 8, bitAt v k = bitAt w k) : v = w :=
  BitVec.eq_of_getLsbD_eq fun k hk => h k hk

/-! ## Where a pixel lives -/

theorem inBounds_iff {cfg : Cfg} {x y : Int} :
    inBounds cfg x y = true ↔ (0 ≤ x ∧ x < cfg.width) ∧ 0 ≤ y ∧ y < cfg.height := by
  simp [inBounds]

theorem fbBit_lt (y : Int) : fbBit y < 8 := by
  unfold fbBit
  omega

/-- The index map on in-bounds pixels, over naturals. -/
theorem fbIndex_cast {cfg : Cfg} {x y : Int} (h : inBounds cfg x y = true) :
    fbIndex cfg x y = y.toNat / 8 * cfg.width + x.toNat := by
  obtain ⟨⟨hx, -⟩, hy, -⟩ := inBounds_iff.mp h
  obtain ⟨a, rfl⟩ := Int.eq_ofNat_of_zero_le hx
  obtain ⟨b, rfl⟩ := Int.eq_ofNat_of_zero_le hy
  unfold fbIndex
  norm_cast

/-- An in-bounds pixel lives inside `FB`. -/
theorem fbIndex_lt {cfg : Cfg} {x y : Int} (hh : cfg.height % 8 = 0) (h : inBounds cfg x y = true) :
    fbIndex cfg x y < cfg.fbBytes := by
  rw [fbIndex_cast h]
  obtain ⟨⟨hx, hxw⟩, hy, hyh⟩ := inBounds_iff.mp h
  obtain ⟨pages, hp⟩ : ∃ pages, cfg.height = 8 * pages := ⟨cfg.height / 8, by omega⟩
  have hbytes : cfg.fbBytes = pages * cfg.width := by
    unfold Cfg.fbBytes
    rw [hp, show cfg.width * (8 * pages) = 8 * (pages * cfg.width) by ring]
    omega
  have hpage : y.toNat / 8 + 1 ≤ pages := by omega
  have hx' : x.toNat < cfg.width := by omega
  calc y.toNat / 8 * cfg.width + x.toNat < y.toNat / 8 * cfg.width + cfg.width := by omega
    _ = (y.toNat / 8 + 1) * cfg.width := by ring
    _ ≤ pages * cfg.width := Nat.mul_le_mul_right _ hpage
    _ = cfg.fbBytes := hbytes.symm

/-- Different in-bounds pixels live in different bits. -/
theorem pixel_eq_of_place {cfg : Cfg} {x y x' y' : Int} (h : inBounds cfg x y = true)
    (h' : inBounds cfg x' y' = true) (hi : fbIndex cfg x y = fbIndex cfg x' y') (hb : fbBit y = fbBit y') :
    x = x' ∧ y = y' := by
  rw [fbIndex_cast h, fbIndex_cast h'] at hi
  obtain ⟨⟨hx, hxw⟩, hy, -⟩ := inBounds_iff.mp h
  obtain ⟨⟨hx', hxw'⟩, hy', -⟩ := inBounds_iff.mp h'
  have hw : x.toNat < cfg.width := by omega
  have hw' : x'.toNat < cfg.width := by omega
  have hcol := congrArg (· % cfg.width) hi
  have hpage := congrArg (· / cfg.width) hi
  simp only [Nat.mul_comm _ cfg.width, Nat.mul_add_mod, Nat.mod_eq_of_lt hw, Nat.mod_eq_of_lt hw'] at hcol
  simp only [Nat.mul_comm _ cfg.width, Nat.mul_add_div (Nat.lt_of_le_of_lt (Nat.zero_le _) hw),
    Nat.div_eq_of_lt hw, Nat.div_eq_of_lt hw', Nat.add_zero] at hpage
  unfold fbBit at hb
  omega

/-! ## Writing one pixel -/

/-- Off the panel nothing is written. -/
theorem putPixel_outside {cfg : Cfg} {x y : Int} (fb : Memory) (color : Bool) (h : inBounds cfg x y = false) :
    putPixel cfg fb x y color = fb := by
  simp [putPixel, h]

theorem putPixel_wf {cfg : Cfg} {fb : Memory} (hfb : Memory.wf fb) (x y : Int) (color : Bool) :
    Memory.wf (putPixel cfg fb x y color) := by
  unfold putPixel
  split
  · exact Memory.write_wf hfb _ _
  · exact hfb

theorem putPixel_inside {cfg : Cfg} {fb : Memory} (hh : cfg.height % 8 = 0)
    (hfb : ∀ c ∈ fb, c.1 < cfg.fbBytes) (x y : Int) (color : Bool) :
    ∀ c ∈ putPixel cfg fb x y color, c.1 < cfg.fbBytes := by
  unfold putPixel
  split
  · next h => exact Memory.write_inside hfb (fbIndex_lt hh h)
  · exact hfb

/-- The byte of an in-bounds pixel after it is written. -/
theorem read_putPixel_same {cfg : Cfg} {fb : Memory} {x y : Int} (hfb : Memory.wf fb) (color : Bool)
    (h : inBounds cfg x y = true) :
    Memory.read (putPixel cfg fb x y color) (fbIndex cfg x y) =
      putBit (Memory.read fb (fbIndex cfg x y)) (fbBit y) color := by
  simp [putPixel, h, Memory.read_write_same hfb]

/-- Bytes that do not hold the pixel stay. -/
theorem read_putPixel_other {cfg : Cfg} (fb : Memory) {x y : Int} (color : Bool) {a : Nat}
    (h : inBounds cfg x y = true → fbIndex cfg x y ≠ a) :
    Memory.read (putPixel cfg fb x y color) a = Memory.read fb a := by
  unfold putPixel
  split
  · next hin => exact Memory.read_write_other _ _ (Ne.symm (h hin))
  · rfl

/-- What every pixel reads as after one is written. -/
theorem pixelAt_putPixel {cfg : Cfg} {fb : Memory} (hfb : Memory.wf fb) (x y : Int) (color : Bool) (x' y' : Int) :
    pixelAt cfg (putPixel cfg fb x y color) x' y' =
      if inBounds cfg x y = true ∧ x' = x ∧ y' = y then color else pixelAt cfg fb x' y' := by
  by_cases h : inBounds cfg x y = true
  · by_cases h' : inBounds cfg x' y' = true
    · simp only [pixelAt, h', Bool.true_and, h, true_and]
      by_cases hi : fbIndex cfg x' y' = fbIndex cfg x y
      · rw [hi, read_putPixel_same hfb color h, bitAt_putBit _ _ (fbBit_lt y) (fbBit_lt y')]
        by_cases hb : fbBit y' = fbBit y
        · obtain ⟨rfl, rfl⟩ := pixel_eq_of_place h' h hi hb
          simp
        · have : ¬(x' = x ∧ y' = y) := fun e => hb (by rw [e.2])
          simp [hb, this]
      · rw [read_putPixel_other fb color fun _ => Ne.symm hi]
        have : ¬(x' = x ∧ y' = y) := fun e => hi (by rw [e.1, e.2])
        simp [this]
    · have : ¬(x' = x ∧ y' = y) := fun e => h' (by rw [e.1, e.2]; exact h)
      simp [pixelAt, h', this]
  · rw [putPixel_outside fb color (by simpa using h)]
    simp [h]

/-! ## Writing many -/

@[simp] theorem putPixels_nil (cfg : Cfg) (color : Bool) (fb : Memory) : putPixels cfg color fb [] = fb := rfl

@[simp] theorem putPixels_cons (cfg : Cfg) (color : Bool) (fb : Memory) (p : Pixel) (ps : List Pixel) :
    putPixels cfg color fb (p :: ps) = putPixels cfg color (putPixel cfg fb p.1 p.2 color) ps := rfl

theorem putPixels_wf {cfg : Cfg} {fb : Memory} (hfb : Memory.wf fb) (color : Bool) (ps : List Pixel) :
    Memory.wf (putPixels cfg color fb ps) := by
  induction ps generalizing fb with
  | nil => exact hfb
  | cons p ps ih => exact ih (putPixel_wf hfb _ _ _)

theorem putPixels_inside {cfg : Cfg} {fb : Memory} (hh : cfg.height % 8 = 0)
    (hfb : ∀ c ∈ fb, c.1 < cfg.fbBytes) (color : Bool) (ps : List Pixel) :
    ∀ c ∈ putPixels cfg color fb ps, c.1 < cfg.fbBytes := by
  induction ps generalizing fb with
  | nil => exact hfb
  | cons p ps ih => exact ih (putPixel_inside hh hfb _ _ _)

/-- Bytes that hold none of the pixels stay. -/
theorem read_putPixels_other {cfg : Cfg} (fb : Memory) (color : Bool) (ps : List Pixel) {a : Nat}
    (h : ∀ p ∈ ps, inBounds cfg p.1 p.2 = true → fbIndex cfg p.1 p.2 ≠ a) :
    Memory.read (putPixels cfg color fb ps) a = Memory.read fb a := by
  induction ps generalizing fb with
  | nil => rfl
  | cons p ps ih =>
    rw [putPixels_cons, ih _ fun q hq => h q (by simp [hq]), read_putPixel_other fb color (h p (by simp))]

/-- What every pixel reads as after many are written in one colour: it depends on the set of pixels alone
(41_framebuffer.md R157). -/
theorem pixelAt_putPixels {cfg : Cfg} {fb : Memory} (hfb : Memory.wf fb) (color : Bool) (ps : List Pixel)
    (x y : Int) :
    pixelAt cfg (putPixels cfg color fb ps) x y =
      if inBounds cfg x y = true ∧ (x, y) ∈ ps then color else pixelAt cfg fb x y := by
  induction ps generalizing fb with
  | nil => simp
  | cons p ps ih =>
    obtain ⟨px, py⟩ := p
    rw [putPixels_cons, ih (putPixel_wf hfb _ _ _), pixelAt_putPixel hfb]
    by_cases hps : inBounds cfg x y = true ∧ (x, y) ∈ ps
    · simp [hps]
    · by_cases hp : x = px ∧ y = py
      · obtain ⟨rfl, rfl⟩ := hp
        by_cases hin : inBounds cfg x y = true <;> simp_all
      · have hne : ¬(x, y) = (px, py) := by simpa using hp
        simp only [hps, if_false, hp, and_false, List.mem_cons, hne, false_or]

/-- Lighting pixels: lit after is lit before or among them. -/
theorem lit_putPixels {cfg : Cfg} {fb : Memory} (hfb : Memory.wf fb) (ps : List Pixel) (x y : Int) :
    pixelAt cfg (putPixels cfg true fb ps) x y = true ↔
      pixelAt cfg fb x y = true ∨ inBounds cfg x y = true ∧ (x, y) ∈ ps := by
  rw [pixelAt_putPixels hfb]
  split <;> simp_all

end Sys2Proof.Machine
end

