-- ==== Sys2Proof/Laws/Admission.lean ====
section
/-! SUPPORT. Admission of requests, and framebuffers that agree on every pixel. -/

namespace Sys2Proof.Machine

theorem inRange_iff {cfg : Cfg} {vs : List Int} : inRange cfg vs = true ↔ Admitted cfg vs := by
  simp [inRange, Admitted]

theorem inRange_of_admitted {cfg : Cfg} {vs : List Int} (h : Admitted cfg vs) : inRange cfg vs = true :=
  inRange_iff.2 h

theorem inRange_of_outside {cfg : Cfg} {vs : List Int} (h : Outside cfg vs) : inRange cfg vs = false := by
  obtain ⟨v, hv, ho⟩ := h
  rw [Bool.eq_false_iff, ne_eq, inRange_iff]
  intro ha
  have := ha v hv
  omega

/-- A request gives a next state exactly where it is admitted and its run does. -/
theorem whenAdmitted_next {inR sharesFb : Bool} {run : Host.Outcome State Fault Refusal} {t : State} :
    whenAdmitted inR sharesFb run = .next t ↔ inR = true ∧ sharesFb = false ∧ run = .next t := by
  cases inR <;> cases sharesFb <;> simp [whenAdmitted]

@[simp] theorem whenAdmitted_run (run : Host.Outcome State Fault Refusal) :
    whenAdmitted true false run = run := rfl

@[simp] theorem whenAdmitted_outOfRange (sharesFb : Bool) (run : Host.Outcome State Fault Refusal) :
    whenAdmitted false sharesFb run = .refused .operandRange := rfl

@[simp] theorem whenAdmitted_shared (run : Host.Outcome State Fault Refusal) :
    whenAdmitted true true run = .refused .operandSharesFb := rfl

/-- A request that needs READY gives a next state exactly in READY. -/
theorem whenReady_next {s t : State} {run : Host.Outcome State Fault Refusal} :
    whenReady s run = .next t ↔ s.lc = .ready ∧ run = .next t := by
  by_cases h : s.lc = .ready <;> simp [whenReady, State.initialized, h]

/-- Reading outside a framebuffer gives its reset contents. -/
theorem Memory.read_outside {m : Memory} {bound a : Nat} (hm : ∀ c ∈ m, c.1 < bound) (ha : bound ≤ a) :
    Memory.read m a = Memory.unlisted := by
  induction m with
  | nil => rfl
  | cons c m ih =>
    obtain ⟨k, v⟩ := c
    have hk : k < bound := hm (k, v) (by simp)
    have hne : k ≠ a := by omega
    simp [Memory.read, hne, ih fun c hc => hm c (by simp [hc])]

/-- Every bit of `FB` is some in-bounds pixel (20_memory.md R51). -/
theorem exists_pixel_at {cfg : Cfg} (hh : cfg.height % 8 = 0) {i b : Nat} (hi : i < cfg.fbBytes) (hb : b < 8) :
    ∃ x y, inBounds cfg x y = true ∧ fbIndex cfg x y = i ∧ fbBit y = b := by
  obtain ⟨pages, hp⟩ : ∃ pages, cfg.height = 8 * pages := ⟨cfg.height / 8, by omega⟩
  have hbytes : cfg.fbBytes = pages * cfg.width := by
    unfold Cfg.fbBytes
    rw [hp, show cfg.width * (8 * pages) = 8 * (pages * cfg.width) by ring]
    omega
  have hw : 0 < cfg.width := by
    rcases Nat.eq_zero_or_pos cfg.width with h | h
    · rw [hbytes, h] at hi; omega
    · exact h
  have hpage : i / cfg.width < pages := Nat.div_lt_of_lt_mul (by rw [Nat.mul_comm, ← hbytes]; exact hi)
  have hmod := Nat.mod_lt i hw
  have hin : inBounds cfg ((i % cfg.width : Nat) : Int) ((8 * (i / cfg.width) + b : Nat) : Int) = true := by
    rw [inBounds_iff]; omega
  refine ⟨_, _, hin, ?_, ?_⟩
  · rw [fbIndex_cast hin]
    simp only [Int.toNat_natCast]
    rw [show (8 * (i / cfg.width) + b) / 8 = i / cfg.width by omega, Nat.mul_comm, Nat.div_add_mod]
  · simp only [fbBit]; omega

/-- Framebuffers that agree on every pixel are equal. -/
theorem fb_ext_of_pixels {cfg : Cfg} (hh : cfg.height % 8 = 0) {m n : Memory} (hm : Memory.wf m)
    (hn : Memory.wf n) (hmi : ∀ c ∈ m, c.1 < cfg.fbBytes) (hni : ∀ c ∈ n, c.1 < cfg.fbBytes)
    (h : ∀ x y, pixelAt cfg m x y = pixelAt cfg n x y) : m = n := by
  refine Memory.ext hm hn fun a => ?_
  by_cases ha : a < cfg.fbBytes
  · refine byte_eq_of_bits fun k hk => ?_
    obtain ⟨x, y, hin, rfl, rfl⟩ := exists_pixel_at hh ha hk
    simpa [pixelAt, hin] using h x y
  · rw [Memory.read_outside hmi (by omega), Memory.read_outside hni (by omega)]

theorem height_of_legal {cfg : Cfg} (h : cfg.legal = true) : cfg.height % 8 = 0 := by
  simp only [Cfg.legal, Bool.and_eq_true, decide_eq_true_eq] at h
  omega

theorem putPixels_append (cfg : Cfg) (color : Bool) (fb : Memory) (ps qs : List Pixel) :
    putPixels cfg color fb (ps ++ qs) = putPixels cfg color (putPixels cfg color fb ps) qs := by
  simp [putPixels, List.foldl_append]

end Sys2Proof.Machine
end

