-- ==== Sys2Proof/Laws/Codec.lean ====
section
/-! SUPPORT. Each reader of a request record gives back what its writer put, and leaves what follows. -/

namespace Sys2Proof

theorem takeNat_put (n : Nat) (h : n < 4294967296) (r : List Byte) : takeNat (putNat n ++ r) = .ok (n, r) := by
  simp [putNat, beBytes, takeNat]
  omega

theorem takeInt_of_takeNat {bs r : List Byte} {n : Nat} (h : takeNat bs = .ok (n, r)) :
    takeInt bs = .ok (if n < 2147483648 then (n : Int) else (n : Int) - 4294967296, r) := by
  unfold takeInt
  rw [h]
  rfl

theorem fitsInt_iff {v : Int} : fitsInt v = true ↔ -2147483648 ≤ v ∧ v < 2147483648 := by
  simp only [fitsInt, decide_eq_true_eq]

theorem twosComplement_back {v : Int} (h : -2147483648 ≤ v ∧ v < 2147483648) :
    (if (v % 4294967296).toNat < 2147483648 then (((v % 4294967296).toNat : Nat) : Int)
      else (((v % 4294967296).toNat : Nat) : Int) - 4294967296) = v := by
  split <;> omega

theorem takeInt_put {v : Int} (h : fitsInt v = true) (r : List Byte) : takeInt (putInt v ++ r) = .ok (v, r) := by
  unfold putInt
  rw [takeInt_of_takeNat (takeNat_put _ (by omega) r), twosComplement_back (fitsInt_iff.1 h)]

theorem takeBool_put (b : Bool) (r : List Byte) : takeBool (putBool b ++ r) = .ok (b, r) := by
  cases b <;> simp [putBool, takeBool]

theorem takeByteSeq_of {bs r₁ r₂ r₃ data : List Byte} {shared : Bool} {n : Nat}
    (h₁ : takeBool bs = .ok (shared, r₁)) (h₂ : takeNat r₁ = .ok (n, r₂)) (h₃ : takeBytes n r₂ = .ok (data, r₃)) :
    takeByteSeq bs = .ok (⟨data, shared⟩, r₃) := by
  unfold takeByteSeq
  rw [h₁]
  change (do let (n, r) ← takeNat r₁
             let (data, r) ← takeBytes n r
             return ((⟨data, shared⟩ : ByteSeq), r)) = _
  rw [h₂]
  change (do let (data, r) ← takeBytes n r₂
             return ((⟨data, shared⟩ : ByteSeq), r)) = _
  rw [h₃]
  rfl

theorem takeBytes_append (data r : List Byte) : takeBytes data.length (data ++ r) = .ok (data, r) := by
  simp [takeBytes]

theorem takeByteSeq_put {b : ByteSeq} (h : b.fitsRecord = true) (r : List Byte) :
    takeByteSeq (putByteSeq b ++ r) = .ok (b, r) := by
  have hn : b.data.length < 4294967296 := by simpa [ByteSeq.fitsRecord, fitsField] using h
  have h₁ := takeBool_put b.sharesFb (putNat b.data.length ++ (b.data ++ r))
  have h₂ := takeNat_put b.data.length hn (b.data ++ r)
  rw [putByteSeq, List.append_assoc, List.append_assoc]
  exact takeByteSeq_of h₁ h₂ (takeBytes_append b.data r)

theorem takeTerm_put {c : Command} (h : c.fitsRecord = true) (r : List Byte) :
    takeTerm (putTerm c ++ r) = .ok (c, r) := by
  simp only [Command.fitsRecord] at h
  cases c <;> simp [Command.operands, fitsField] at h <;>
    simp [putTerm, takeTerm, Command.number, Command.operands, takeTerm1, takeTerm2, bind, Except.bind, pure,
      Except.pure, takeNat_put, h]

end Sys2Proof
end

