-- ==== Sys2Proof/Laws/CommandTable.lean ====
section
/-! SUPPORT. The command table: its prefix bytes, whose fields are clear whatever the table, and the bytes of the
reference table. -/

namespace Sys2Proof

theorem fixedBits_toNat {m n : Nat} (h : m + n = 8) (p : BitVec m) : (fixedBits n p).toNat = p.toNat * 2 ^ n := by
  have hp := p.isLt
  have hlt : p.toNat * 2 ^ n < 2 ^ 8 := by
    rw [← h, Nat.pow_add]
    exact Nat.mul_lt_mul_of_pos_right hp (by positivity)
  have h8 : p.toNat < 2 ^ 8 := Nat.lt_of_lt_of_le hp (Nat.pow_le_pow_right (by decide) (by omega))
  rw [fixedBits, BitVec.toNat_shiftLeft, BitVec.toNat_setWidth, Nat.mod_eq_of_lt h8, Nat.shiftLeft_eq,
    Nat.mod_eq_of_lt hlt]

/-- A prefix keeps its field clear whatever the table (30_encoding.md R73, R75). -/
theorem lowField_fixedBits {m n : Nat} (h : m + n = 8) (p : BitVec m) : lowField n (fixedBits n p) = 0 := by
  rw [lowField, fixedBits_toNat h]
  exact Nat.mul_mod_left _ _

/-- A prefix and a field below it are joined without overlap (30_encoding.md R73). -/
theorem fixedBits_or_toNat {m n : Nat} (h : m + n = 8) (p : BitVec m) {v : Nat} (hv : v < 2 ^ n) :
    (fixedBits n p ||| BitVec.ofNat 8 v).toNat = (fixedBits n p).toNat + v := by
  have h8 : v < 2 ^ 8 := Nat.lt_of_lt_of_le hv (Nat.pow_le_pow_right (by decide) (by omega))
  rw [BitVec.toNat_or, BitVec.toNat_ofNat, Nat.mod_eq_of_lt h8, fixedBits_toNat h, Nat.mul_comm,
    ← Nat.two_pow_add_eq_or_of_lt hv]

@[simp] theorem CmdTable.withPump_displayOnOff (off on : CpBytes) : (withPump off on).displayOnOff = 0xAE := (rfl)
@[simp] theorem CmdTable.withPump_addressingMode (off on : CpBytes) : (withPump off on).addressingMode = 0x20 := (rfl)
@[simp] theorem CmdTable.withPump_pageAddress (off on : CpBytes) : (withPump off on).pageAddress = 0xB0 := (rfl)
@[simp] theorem CmdTable.withPump_columnLow (off on : CpBytes) : (withPump off on).columnLow = 0x00 := (rfl)
@[simp] theorem CmdTable.withPump_columnHigh (off on : CpBytes) : (withPump off on).columnHigh = 0x10 := (rfl)
@[simp] theorem CmdTable.withPump_segmentRemap (off on : CpBytes) : (withPump off on).segmentRemap = 0xA0 := (rfl)
@[simp] theorem CmdTable.withPump_entireDisplay (off on : CpBytes) : (withPump off on).entireDisplay = 0xA4 := (rfl)
@[simp] theorem CmdTable.withPump_inverseDisplay (off on : CpBytes) : (withPump off on).inverseDisplay = 0xA6 := (rfl)
@[simp] theorem CmdTable.withPump_comScan (off on : CpBytes) : (withPump off on).comScan = 0xC0 := (rfl)
@[simp] theorem CmdTable.withPump_displayClock (off on : CpBytes) : (withPump off on).displayClock = 0xD5 := (rfl)
@[simp] theorem CmdTable.withPump_multiplexRatio (off on : CpBytes) : (withPump off on).multiplexRatio = 0xA8 := (rfl)
@[simp] theorem CmdTable.withPump_displayOffset (off on : CpBytes) : (withPump off on).displayOffset = 0xD3 := (rfl)
@[simp] theorem CmdTable.withPump_startLine (off on : CpBytes) : (withPump off on).startLine = 0xDC := (rfl)
@[simp] theorem CmdTable.withPump_chargePumpOff (off on : CpBytes) : (withPump off on).chargePumpOff = off := (rfl)
@[simp] theorem CmdTable.withPump_chargePumpOn (off on : CpBytes) : (withPump off on).chargePumpOn = on := (rfl)
@[simp] theorem CmdTable.withPump_contrast (off on : CpBytes) : (withPump off on).contrast = 0x81 := (rfl)
@[simp] theorem CmdTable.withPump_precharge (off on : CpBytes) : (withPump off on).precharge = 0xD9 := (rfl)
@[simp] theorem CmdTable.withPump_vcomDeselect (off on : CpBytes) : (withPump off on).vcomDeselect = 0xDB := (rfl)
@[simp] theorem CmdTable.withPump_readModifyWrite (off on : CpBytes) : (withPump off on).readModifyWrite = 0xE0 := (rfl)
@[simp] theorem CmdTable.withPump_endReadModifyWrite (off on : CpBytes) : (withPump off on).endReadModifyWrite = 0xEE :=
  (rfl)
@[simp] theorem CmdTable.withPump_noOperation (off on : CpBytes) : (withPump off on).noOperation = 0xE3 := (rfl)

end Sys2Proof
end

