-- ==== Sys2Proof/Laws/State.lean ====
section
/-! SUPPORT. What each state update does to each field. -/

namespace Sys2Proof.Machine

@[simp] theorem State.setFb_cfg (s : State) (v : Memory) : (s.setFb v).cfg = s.cfg := rfl
@[simp] theorem State.setFb_font (s : State) (v : Memory) : (s.setFb v).font = s.font := rfl
@[simp] theorem State.setFb_fb (s : State) (v : Memory) : (s.setFb v).fb = v := rfl
@[simp] theorem State.setFb_lc (s : State) (v : Memory) : (s.setFb v).lc = s.lc := rfl
@[simp] theorem State.setFb_trace (s : State) (v : Memory) : (s.setFb v).trace = s.trace := rfl
@[simp] theorem State.setFb_refusalMark (s : State) (v : Memory) : (s.setFb v).refusalMark = s.refusalMark := rfl
@[simp] theorem State.setFb_ret (s : State) (v : Memory) : (s.setFb v).ret = s.ret := rfl
@[simp] theorem State.setFb_inbox (s : State) (v : Memory) : (s.setFb v).inbox = s.inbox := rfl
@[simp] theorem State.setFb_busAnswers (s : State) (v : Memory) : (s.setFb v).busAnswers = s.busAnswers := rfl
@[simp] theorem State.setFb_draws (s : State) (v : Memory) : (s.setFb v).draws = s.draws := rfl

@[simp] theorem State.setLc_cfg (s : State) (v : Lifecycle) : (s.setLc v).cfg = s.cfg := rfl
@[simp] theorem State.setLc_font (s : State) (v : Lifecycle) : (s.setLc v).font = s.font := rfl
@[simp] theorem State.setLc_fb (s : State) (v : Lifecycle) : (s.setLc v).fb = s.fb := rfl
@[simp] theorem State.setLc_lc (s : State) (v : Lifecycle) : (s.setLc v).lc = v := rfl
@[simp] theorem State.setLc_trace (s : State) (v : Lifecycle) : (s.setLc v).trace = s.trace := rfl
@[simp] theorem State.setLc_refusalMark (s : State) (v : Lifecycle) : (s.setLc v).refusalMark = s.refusalMark := rfl
@[simp] theorem State.setLc_ret (s : State) (v : Lifecycle) : (s.setLc v).ret = s.ret := rfl
@[simp] theorem State.setLc_inbox (s : State) (v : Lifecycle) : (s.setLc v).inbox = s.inbox := rfl
@[simp] theorem State.setLc_busAnswers (s : State) (v : Lifecycle) : (s.setLc v).busAnswers = s.busAnswers := rfl
@[simp] theorem State.setLc_draws (s : State) (v : Lifecycle) : (s.setLc v).draws = s.draws := rfl

@[simp] theorem State.setRet_cfg (s : State) (v : Ret) : (s.setRet v).cfg = s.cfg := rfl
@[simp] theorem State.setRet_font (s : State) (v : Ret) : (s.setRet v).font = s.font := rfl
@[simp] theorem State.setRet_fb (s : State) (v : Ret) : (s.setRet v).fb = s.fb := rfl
@[simp] theorem State.setRet_lc (s : State) (v : Ret) : (s.setRet v).lc = s.lc := rfl
@[simp] theorem State.setRet_trace (s : State) (v : Ret) : (s.setRet v).trace = s.trace := rfl
@[simp] theorem State.setRet_refusalMark (s : State) (v : Ret) : (s.setRet v).refusalMark = s.refusalMark := rfl
@[simp] theorem State.setRet_ret (s : State) (v : Ret) : (s.setRet v).ret = v := rfl
@[simp] theorem State.setRet_inbox (s : State) (v : Ret) : (s.setRet v).inbox = s.inbox := rfl
@[simp] theorem State.setRet_busAnswers (s : State) (v : Ret) : (s.setRet v).busAnswers = s.busAnswers := rfl
@[simp] theorem State.setRet_draws (s : State) (v : Ret) : (s.setRet v).draws = s.draws := rfl

@[simp] theorem State.emit_cfg (s : State) (e : HostEvent) : (s.emit e).cfg = s.cfg := rfl
@[simp] theorem State.emit_font (s : State) (e : HostEvent) : (s.emit e).font = s.font := rfl
@[simp] theorem State.emit_fb (s : State) (e : HostEvent) : (s.emit e).fb = s.fb := rfl
@[simp] theorem State.emit_lc (s : State) (e : HostEvent) : (s.emit e).lc = s.lc := rfl
@[simp] theorem State.emit_trace (s : State) (e : HostEvent) : (s.emit e).trace = s.trace ++ [e] := rfl
@[simp] theorem State.emit_refusalMark (s : State) (e : HostEvent) : (s.emit e).refusalMark = s.refusalMark := rfl
@[simp] theorem State.emit_ret (s : State) (e : HostEvent) : (s.emit e).ret = s.ret := rfl
@[simp] theorem State.emit_inbox (s : State) (e : HostEvent) : (s.emit e).inbox = s.inbox := rfl
@[simp] theorem State.emit_busAnswers (s : State) (e : HostEvent) : (s.emit e).busAnswers = s.busAnswers := rfl
@[simp] theorem State.emit_draws (s : State) (e : HostEvent) : (s.emit e).draws = s.draws := rfl

@[simp] theorem State.setInbox_cfg (s : State) (v : List Issue) : (s.setInbox v).cfg = s.cfg := rfl
@[simp] theorem State.setInbox_font (s : State) (v : List Issue) : (s.setInbox v).font = s.font := rfl
@[simp] theorem State.setInbox_fb (s : State) (v : List Issue) : (s.setInbox v).fb = s.fb := rfl
@[simp] theorem State.setInbox_lc (s : State) (v : List Issue) : (s.setInbox v).lc = s.lc := rfl
@[simp] theorem State.setInbox_trace (s : State) (v : List Issue) : (s.setInbox v).trace = s.trace := rfl
@[simp] theorem State.setInbox_refusalMark (s : State) (v : List Issue) : (s.setInbox v).refusalMark = s.refusalMark := rfl
@[simp] theorem State.setInbox_ret (s : State) (v : List Issue) : (s.setInbox v).ret = s.ret := rfl
@[simp] theorem State.setInbox_inbox (s : State) (v : List Issue) : (s.setInbox v).inbox = v := rfl
@[simp] theorem State.setInbox_busAnswers (s : State) (v : List Issue) : (s.setInbox v).busAnswers = s.busAnswers := rfl
@[simp] theorem State.setInbox_draws (s : State) (v : List Issue) : (s.setInbox v).draws = s.draws := rfl

@[simp] theorem State.markRefused_cfg (s : State) (r : Refusal) : (s.markRefused r).cfg = s.cfg := rfl
@[simp] theorem State.markRefused_font (s : State) (r : Refusal) : (s.markRefused r).font = s.font := rfl
@[simp] theorem State.markRefused_fb (s : State) (r : Refusal) : (s.markRefused r).fb = s.fb := rfl
@[simp] theorem State.markRefused_lc (s : State) (r : Refusal) : (s.markRefused r).lc = s.lc := rfl
@[simp] theorem State.markRefused_trace (s : State) (r : Refusal) : (s.markRefused r).trace = s.trace := rfl
@[simp] theorem State.markRefused_refusalMark (s : State) (r : Refusal) : (s.markRefused r).refusalMark = some r := rfl
@[simp] theorem State.markRefused_ret (s : State) (r : Refusal) : (s.markRefused r).ret = s.ret := rfl
@[simp] theorem State.markRefused_inbox (s : State) (r : Refusal) : (s.markRefused r).inbox = s.inbox := rfl
@[simp] theorem State.markRefused_busAnswers (s : State) (r : Refusal) : (s.markRefused r).busAnswers = s.busAnswers := rfl
@[simp] theorem State.markRefused_draws (s : State) (r : Refusal) : (s.markRefused r).draws = s.draws := rfl

@[simp] theorem State.countDraw_cfg (s : State) : s.countDraw.cfg = s.cfg := rfl
@[simp] theorem State.countDraw_font (s : State) : s.countDraw.font = s.font := rfl
@[simp] theorem State.countDraw_fb (s : State) : s.countDraw.fb = s.fb := rfl
@[simp] theorem State.countDraw_lc (s : State) : s.countDraw.lc = s.lc := rfl
@[simp] theorem State.countDraw_trace (s : State) : s.countDraw.trace = s.trace := rfl
@[simp] theorem State.countDraw_refusalMark (s : State) : s.countDraw.refusalMark = s.refusalMark := rfl
@[simp] theorem State.countDraw_ret (s : State) : s.countDraw.ret = s.ret := rfl
@[simp] theorem State.countDraw_inbox (s : State) : s.countDraw.inbox = s.inbox := rfl
@[simp] theorem State.countDraw_busAnswers (s : State) : s.countDraw.busAnswers = s.busAnswers := rfl
@[simp] theorem State.countDraw_draws (s : State) : s.countDraw.draws = s.draws + 1 := rfl

@[simp] theorem State.setAnswers_cfg (s : State) (v : List Bool) : (s.setAnswers v).cfg = s.cfg := rfl
@[simp] theorem State.setAnswers_font (s : State) (v : List Bool) : (s.setAnswers v).font = s.font := rfl
@[simp] theorem State.setAnswers_fb (s : State) (v : List Bool) : (s.setAnswers v).fb = s.fb := rfl
@[simp] theorem State.setAnswers_lc (s : State) (v : List Bool) : (s.setAnswers v).lc = s.lc := rfl
@[simp] theorem State.setAnswers_trace (s : State) (v : List Bool) : (s.setAnswers v).trace = s.trace := rfl
@[simp] theorem State.setAnswers_refusalMark (s : State) (v : List Bool) : (s.setAnswers v).refusalMark = s.refusalMark := rfl
@[simp] theorem State.setAnswers_ret (s : State) (v : List Bool) : (s.setAnswers v).ret = s.ret := rfl
@[simp] theorem State.setAnswers_inbox (s : State) (v : List Bool) : (s.setAnswers v).inbox = s.inbox := rfl
@[simp] theorem State.setAnswers_busAnswers (s : State) (v : List Bool) : (s.setAnswers v).busAnswers = v := rfl
@[simp] theorem State.setAnswers_draws (s : State) (v : List Bool) : (s.setAnswers v).draws = s.draws := rfl

end Sys2Proof.Machine
end

