-- ==== Sys2Proof/Laws/HostPort.lean ====
section
/-! SUPPORT. What the host-port operations can do: which events they append, which answer they take, and that they
leave everything else. -/

namespace Sys2Proof.Machine

/-- Everything a host-port operation leaves alone: all but the trace and the host's answers. -/
structure PortFrame (s t : State) : Prop where
  cfg : t.cfg = s.cfg
  font : t.font = s.font
  fb : t.fb = s.fb
  lc : t.lc = s.lc
  refusalMark : t.refusalMark = s.refusalMark
  ret : t.ret = s.ret
  inbox : t.inbox = s.inbox

theorem PortFrame.refl (s : State) : PortFrame s s := ⟨rfl, rfl, rfl, rfl, rfl, rfl, rfl⟩

theorem PortFrame.trans {s t u : State} (h : PortFrame s t) (h' : PortFrame t u) : PortFrame s u :=
  ⟨h'.cfg.trans h.cfg, h'.font.trans h.font, h'.fb.trans h.fb, h'.lc.trans h.lc,
    h'.refusalMark.trans h.refusalMark, h'.ret.trans h.ret, h'.inbox.trans h.inbox⟩

theorem emit_portFrame (s : State) (e : HostEvent) : PortFrame s (s.emit e) := ⟨rfl, rfl, rfl, rfl, rfl, rfl, rfl⟩

/-- Taking an answer: which one it is, and what is left. -/
theorem takeAnswer_spec (s : State) (hbus : s.cfg.hasBus = true) :
    s.takeAnswer.2 = s.answer 0 ∧ (∀ k, s.takeAnswer.1.answer k = s.answer (k + 1)) ∧
      PortFrame s s.takeAnswer.1 ∧ s.takeAnswer.1.trace = s.trace := by
  cases h : s.busAnswers with
  | nil =>
    refine ⟨by simp [State.takeAnswer, State.answer, h, hbus], fun k => ?_, ?_, ?_⟩
    · simp [State.takeAnswer, State.answer, h, hbus, Nat.add_assoc, Nat.add_comm 1 k]
    · simp only [State.takeAnswer, h]; exact ⟨rfl, rfl, rfl, rfl, rfl, rfl, rfl⟩
    · simp [State.takeAnswer, h]
  | cons a as =>
    refine ⟨by simp [State.takeAnswer, State.answer, h, hbus], fun k => ?_, ?_, ?_⟩
    · simp [State.takeAnswer, State.answer, h, hbus]
    · simp only [State.takeAnswer, h]; exact ⟨rfl, rfl, rfl, rfl, rfl, rfl, rfl⟩
    · simp [State.takeAnswer, h]

/-- The answers to come depend on the configuration, the decided answers and the counter alone. -/
theorem answer_congr {s t : State} (hc : t.cfg = s.cfg) (ha : t.busAnswers = s.busAnswers) (hd : t.draws = s.draws)
    (k : Nat) : t.answer k = s.answer k := by
  simp [State.answer, hc, ha, hd]

@[simp] theorem emit_answer (s : State) (e : HostEvent) (k : Nat) : (s.emit e).answer k = s.answer k := rfl

/-- What an operation that makes no transmission does: its events, and nothing else. -/
structure PortQuiet (s t : State) (evs : List HostEvent) : Prop where
  frame : PortFrame s t
  trace : t.trace = s.trace ++ evs
  answers : ∀ k, t.answer k = s.answer k

theorem PortQuiet.trans {s t u : State} {es fs : List HostEvent} (h : PortQuiet s t es) (h' : PortQuiet t u fs) :
    PortQuiet s u (es ++ fs) :=
  ⟨h.frame.trans h'.frame, by rw [h'.trace, h.trace, List.append_assoc], fun k => (h'.answers k).trans (h.answers k)⟩

theorem gpioWrite_spec (line : Line) (level : Level) (s : State) :
    PortQuiet s (gpioWrite line level s) ([HostEvent.gpioWrite line level].filter (eventPresent s.cfg)) := by
  unfold gpioWrite
  cases h : s.cfg.hasGpio
  · exact ⟨.refl s, by simp [eventPresent, h], fun _ => rfl⟩
  · exact ⟨emit_portFrame s _, by simp [eventPresent, h], fun k => answer_congr (s := s) rfl rfl rfl k⟩

theorem delay_spec (s : State) :
    PortQuiet s (delay s) ([HostEvent.delay s.cfg.resetDelayMs].filter (eventPresent s.cfg)) := by
  unfold delay
  cases h : s.cfg.hasDelay
  · exact ⟨.refl s, by simp [eventPresent, h], fun _ => rfl⟩
  · exact ⟨emit_portFrame s _, by simp [eventPresent, h], fun k => answer_congr (s := s) rfl rfl rfl k⟩

/-- The reset pulse appends its events and does nothing else (44_sequencer.md R244). -/
theorem resetPulse_spec (s : State) : PortQuiet s (resetPulse s) (pulseEvents s.cfg) := by
  have h1 := gpioWrite_spec .rst .low s
  have h2 := delay_spec (gpioWrite .rst .low s)
  have h3 := gpioWrite_spec .rst .high (delay (gpioWrite .rst .low s))
  have h4 := delay_spec (gpioWrite .rst .high (delay (gpioWrite .rst .low s)))
  rw [h1.frame.cfg] at h2
  rw [h2.frame.cfg, h1.frame.cfg] at h3
  rw [h3.frame.cfg, h2.frame.cfg, h1.frame.cfg] at h4
  have h := h1.trans (h2.trans (h3.trans h4))
  simpa only [resetPulse, pulseEvents, ← List.filter_append, List.singleton_append] using h

/-- What one framed transmission does: its events with the next answer, and the answers move on by one. -/
structure Sent (s t : State) (ok : Bool) (level : Level) (bytes : List Byte) : Prop where
  frame : PortFrame s t
  ok_eq : ok = s.answer 0
  trace : t.trace = s.trace ++ frameEvents s.cfg level bytes (s.answer 0)
  answers : ∀ k, t.answer k = s.answer (k + 1)

/-- A framed transmission (44_sequencer.md R240 to R243). -/
theorem sendFrame_spec (f : Frame) (s : State) :
    Sent s (sendFrame f s).1 (sendFrame f s).2 f.level f.bytes := by
  have hg := gpioWrite_spec .dc f.level s
  have hbus : (gpioWrite .dc f.level s).cfg.hasBus = s.cfg.hasBus := by rw [hg.frame.cfg]
  cases h : s.cfg.hasBus
  · have ht : transmit f.bytes (gpioWrite .dc f.level s) = (gpioWrite .dc f.level s, true) := by
      simp [transmit, hbus, h]
    have ha : ∀ k, s.answer k = true := fun k => by simp [State.answer, h]
    refine ⟨?_, ?_, ?_, fun k => ?_⟩ <;> simp only [sendFrame, ht]
    · exact hg.frame
    · exact (ha 0).symm
    · rw [hg.trace]; cases hg' : s.cfg.hasGpio <;> simp [frameEvents, eventPresent, h, hg', List.filter]
    · rw [hg.answers, ha, ha]
  · have hb : (gpioWrite .dc f.level s).cfg.hasBus = true := by rw [hbus, h]
    obtain ⟨t1, t2, t3, t4⟩ := takeAnswer_spec _ hb
    have ht : transmit f.bytes (gpioWrite .dc f.level s) =
        ((gpioWrite .dc f.level s).takeAnswer.1.emit
          (.busTransmit f.bytes (gpioWrite .dc f.level s).takeAnswer.2),
        (gpioWrite .dc f.level s).takeAnswer.2) := by
      simp [transmit, hb]
    refine ⟨?_, ?_, ?_, fun k => ?_⟩ <;> simp only [sendFrame, ht]
    · exact hg.frame.trans (t3.trans (emit_portFrame _ _))
    · rw [t1, hg.answers]
    · rw [State.emit_trace, t4, hg.trace, t1, hg.answers]
      cases hg' : s.cfg.hasGpio <;> simp [frameEvents, eventPresent, h, hg', List.filter]
    · rw [emit_answer, t2, hg.answers]

/-- The frames of a list, as framed byte sequences. -/
def framePairs (fs : List Frame) : List (Level × List Byte) := fs.map fun f => (f.level, f.bytes)

/-- The events of later transmissions, seen from the state after the first. -/
theorem transmissionEvents_shift {s t : State} (hc : t.cfg = s.cfg) (ha : ∀ k, t.answer k = s.answer (k + 1))
    (fs : List (Level × List Byte)) (k : Nat) :
    transmissionEvents t k fs = transmissionEvents s (k + 1) fs := by
  induction fs generalizing k with
  | nil => rfl
  | cons f fs ih => simp only [transmissionEvents, hc, ha, ih]

theorem transmissionEvents_append (s : State) (fs gs : List (Level × List Byte)) (k : Nat) :
    transmissionEvents s k (fs ++ gs) = transmissionEvents s k fs ++ transmissionEvents s (k + fs.length) gs := by
  induction fs generalizing k with
  | nil => simp [transmissionEvents]
  | cons f fs ih => simp [transmissionEvents, ih, Nat.add_assoc, Nat.add_comm 1]

/-- Every frame is sent whatever the answers (44_sequencer.md R245, R246). -/
theorem sendAll_spec (fs : List Frame) (s : State) :
    PortFrame s (sendAll fs s).1 ∧
      (sendAll fs s).1.trace = s.trace ++ transmissionEvents s 0 (framePairs fs) ∧
      ((sendAll fs s).2 = true ↔ ∀ k < fs.length, s.answer k = true) := by
  induction fs generalizing s with
  | nil => exact ⟨.refl s, by simp [sendAll, transmissionEvents, framePairs], by simp [sendAll]⟩
  | cons f fs ih =>
    have h := sendFrame_spec f s
    obtain ⟨i1, i2, i3⟩ := ih (sendFrame f s).1
    have hs : sendAll (f :: fs) s =
        ((sendAll fs (sendFrame f s).1).1, (sendFrame f s).2 && (sendAll fs (sendFrame f s).1).2) := rfl
    rw [hs]
    refine ⟨h.frame.trans i1, ?_, ?_⟩
    · rw [i2, h.trace, transmissionEvents_shift h.frame.cfg h.answers, List.append_assoc]; rfl
    · rw [Bool.and_eq_true, i3, h.ok_eq]
      simp only [h.answers, List.length_cons]
      constructor
      · rintro ⟨h0, hrest⟩ k hk
        cases k with
        | zero => exact h0
        | succ k => exact hrest k (by omega)
      · exact fun hall => ⟨hall 0 (by omega), fun k hk => hall (k + 1) (by omega)⟩

/-- All frames are sent when every answer is a success (44_sequencer.md R255). -/
theorem sendUntilFailure_success (fs : List Frame) (s : State) (h : ∀ k < fs.length, s.answer k = true) :
    PortFrame s (sendUntilFailure fs s).1 ∧ (sendUntilFailure fs s).2 = true ∧
      (sendUntilFailure fs s).1.trace = s.trace ++ transmissionEvents s 0 (framePairs fs) := by
  induction fs generalizing s with
  | nil => exact ⟨.refl s, rfl, by simp [sendUntilFailure, transmissionEvents, framePairs]⟩
  | cons f fs ih =>
    have hf := sendFrame_spec f s
    have h0 : (sendFrame f s).2 = true := hf.ok_eq.trans (h 0 (by simp))
    have hs : sendUntilFailure (f :: fs) s = sendUntilFailure fs (sendFrame f s).1 := by
      simp [sendUntilFailure, h0]
    obtain ⟨i1, i2, i3⟩ := ih (sendFrame f s).1 fun k hk => by
      rw [hf.answers]; exact h (k + 1) (by simpa using hk)
    rw [hs]
    refine ⟨hf.frame.trans i1, i2, ?_⟩
    rw [i3, hf.trace, transmissionEvents_shift hf.frame.cfg hf.answers, List.append_assoc]; rfl

/-- The first failed transmission is the last made (44_sequencer.md R257). -/
theorem sendUntilFailure_failure (fs : List Frame) (s : State) (n : Nat) (hn : n < fs.length)
    (hok : ∀ k < n, s.answer k = true) (hfail : s.answer n = false) :
    PortFrame s (sendUntilFailure fs s).1 ∧ (sendUntilFailure fs s).2 = false ∧
      (sendUntilFailure fs s).1.trace = s.trace ++ transmissionEvents s 0 (framePairs (fs.take (n + 1))) := by
  induction fs generalizing s n with
  | nil => simp at hn
  | cons f fs ih =>
    have hf := sendFrame_spec f s
    cases n with
    | zero =>
      have h0 : (sendFrame f s).2 = false := hf.ok_eq.trans hfail
      have hs : sendUntilFailure (f :: fs) s = ((sendFrame f s).1, false) := by simp [sendUntilFailure, h0]
      rw [hs]
      exact ⟨hf.frame, rfl, by simp [hf.trace, transmissionEvents, framePairs]⟩
    | succ n =>
      have h0 : (sendFrame f s).2 = true := hf.ok_eq.trans (hok 0 (by omega))
      have hs : sendUntilFailure (f :: fs) s = sendUntilFailure fs (sendFrame f s).1 := by
        simp [sendUntilFailure, h0]
      obtain ⟨i1, i2, i3⟩ := ih (sendFrame f s).1 n (by simpa using hn)
        (fun k hk => by rw [hf.answers]; exact hok (k + 1) (by omega)) (by rw [hf.answers]; exact hfail)
      rw [hs]
      refine ⟨hf.frame.trans i1, i2, ?_⟩
      rw [i3, hf.trace, transmissionEvents_shift hf.frame.cfg hf.answers, List.append_assoc]; rfl

end Sys2Proof.Machine
end

