-- ==== Sys2Proof/Laws/Exec.lean ====
section
/-! SUPPORT. What one instruction can do, by family: the lemmas the whole-machine statements rest on. -/

namespace Sys2Proof.Machine

/-! ## Encoder -/

theorem encode_ne_nil (T : CmdTable) (c : Command) : c.encode T ≠ [] := by
  cases c <;> simp [Command.encode, encC1, encC1S, encC2, encC2P]
  rename_i en
  cases T.chargePump en <;> simp [CpBytes.bytes]

theorem exec_ofCommand (c : Command) (s : State) :
    exec (Instr.ofCommand c) s = .next (s.setRet (.bytes (c.encode s.cfg.cmds))) := by
  cases c <;> rfl

theorem exists_command_of_encoder {i : Instr} (h : family i = .encoder) : ∃ c, i = Instr.ofCommand c := by
  cases i <;> try simp [family] at h
  case setDisplayOnOff on => exact ⟨.setDisplayOnOff on, rfl⟩
  case setDisplayClock div osc => exact ⟨.setDisplayClock div osc, rfl⟩
  case setMultiplexRatio ratio => exact ⟨.setMultiplexRatio ratio, rfl⟩
  case setDisplayOffset offset => exact ⟨.setDisplayOffset offset, rfl⟩
  case setDisplayStartLine line => exact ⟨.setDisplayStartLine line, rfl⟩
  case setChargePump en => exact ⟨.setChargePump en, rfl⟩
  case setMemoryAddressingMode mode => exact ⟨.setMemoryAddressingMode mode, rfl⟩
  case setContrast value => exact ⟨.setContrast value, rfl⟩
  case setPageAddress page => exact ⟨.setPageAddress page, rfl⟩
  case setColumnAddressLow col => exact ⟨.setColumnAddressLow col, rfl⟩
  case setColumnAddressHigh col => exact ⟨.setColumnAddressHigh col, rfl⟩
  case setSegmentRemap remap => exact ⟨.setSegmentRemap remap, rfl⟩
  case setEntireDisplayOn on => exact ⟨.setEntireDisplayOn on, rfl⟩
  case setInverseDisplay inv => exact ⟨.setInverseDisplay inv, rfl⟩
  case setComScanDirection dir => exact ⟨.setComScanDirection dir, rfl⟩
  case setPrechargePeriod pre dis => exact ⟨.setPrechargePeriod pre dis, rfl⟩
  case setVcomDeselectLevel level => exact ⟨.setVcomDeselectLevel level, rfl⟩
  case readModifyWrite => exact ⟨.readModifyWrite, rfl⟩
  case endReadModifyWrite => exact ⟨.endReadModifyWrite, rfl⟩
  case nop => exact ⟨.nop, rfl⟩

/-! ## Drawing -/

/-- What a drawing request can do: write pixels in one colour or empty `FB`, and take free values. -/
structure Drew (s t : State) : Prop where
  frame : frameOfDrawing s t
  ret : t.ret = .none
  fb : t.fb = [] ∨ ∃ color ps, t.fb = putPixels s.cfg color s.fb ps

/-- A string writes glyphs, and glyphs are pixels in one colour. -/
theorem putString_pixels (cfg : Cfg) (font : List Byte) (y : Int) (chars : List Byte) (limit : Option Nat)
    (cx : Int) (fb : Memory) : ∃ ps, putString cfg font y chars limit cx fb = putPixels cfg true fb ps := by
  induction chars generalizing limit cx fb with
  | nil => exact ⟨[], by cases limit with
      | none => rfl
      | some n => cases n <;> rfl⟩
  | cons ch rest ih =>
    have key : ∃ ps, (if ch = 0 then fb else if (cfg.width : Int) < cx + cfg.glyphW then fb
        else putString cfg font y rest (limit.map Nat.pred) (cx + cfg.glyphW + 1) (putGlyph cfg font fb cx y ch)) =
        putPixels cfg true fb ps := by
      split
      · exact ⟨[], rfl⟩
      split
      · exact ⟨[], rfl⟩
      obtain ⟨ps, hps⟩ := ih (limit.map Nat.pred) (cx + cfg.glyphW + 1) (putGlyph cfg font fb cx y ch)
      exact ⟨glyphPixels cfg font cx y ch ++ ps, by rw [hps, putPixels_append]; rfl⟩
    cases limit with
    | none => exact key
    | some n =>
      cases n with
      | zero => exact ⟨[], rfl⟩
      | succ n => exact key

theorem drew_of_pixels (s : State) (color : Bool) (ps : List Pixel) :
    Drew s ((s.setFb (putPixels s.cfg color s.fb ps)).setRet .none) :=
  ⟨⟨rfl, rfl, rfl, rfl, rfl, rfl, rfl⟩, rfl, .inr ⟨color, ps, rfl⟩⟩

/-- What a drawing request can do. -/
theorem exec_drawing {i : Instr} {s t : State} (hf : family i = .drawing) (h : exec i s = .next t) : Drew s t := by
  cases i <;> try simp [family] at hf
  case setPixel x y color =>
    obtain ⟨-, -, h⟩ := whenAdmitted_next.1 h
    cases h
    exact drew_of_pixels s color [(x, y)]
  case clearFrameBuffer =>
    cases h
    exact ⟨⟨rfl, rfl, rfl, rfl, rfl, rfl, rfl⟩, rfl, .inl rfl⟩
  case drawLine x0 y0 x1 y1 =>
    obtain ⟨-, -, h⟩ := whenAdmitted_next.1 h
    cases h
    exact drew_of_pixels _ _ _
  case drawRect x y w h' filled =>
    obtain ⟨-, -, h⟩ := whenAdmitted_next.1 h
    cases h
    exact drew_of_pixels _ _ _
  case drawCircle x0 y0 r =>
    obtain ⟨-, -, h⟩ := whenAdmitted_next.1 h
    cases h
    exact drew_of_pixels _ _ _
  case drawBitmap x y w h' bmp size color =>
    obtain ⟨-, -, h⟩ := whenAdmitted_next.1 h
    cases h
    refine ⟨?_, rfl, .inr ⟨color, _, rfl⟩⟩
    unfold State.afterBlit
    split <;> exact ⟨rfl, rfl, rfl, rfl, rfl, rfl, rfl⟩
  case drawChar x y ch =>
    obtain ⟨-, -, h⟩ := whenAdmitted_next.1 h
    cases h
    exact drew_of_pixels _ _ _
  case drawString x y str =>
    obtain ⟨-, -, h⟩ := whenAdmitted_next.1 h
    obtain ⟨ps, hps⟩ := putString_pixels s.cfg s.font y str.data none x s.fb
    rw [hps] at h
    cases h
    exact drew_of_pixels _ _ _
  case drawStringN x y str n =>
    obtain ⟨-, -, h⟩ := whenAdmitted_next.1 h
    obtain ⟨ps, hps⟩ := putString_pixels s.cfg s.font y str.data (some n.toNat) x s.fb
    rw [hps] at h
    cases h
    exact drew_of_pixels _ _ _

/-- GET_PIXEL hands back a pixel and changes nothing else. -/
theorem exec_getPixel_next {s t : State} {x y : Int} (h : exec (.getPixel x y) s = .next t) :
    t = s.setRet (.bool (pixelAt s.cfg s.fb x y)) := by
  obtain ⟨-, -, h⟩ := whenAdmitted_next.1 h
  cases h
  rfl

/-! ## Sequencer -/

/-- An event a list of frames, or a reset pulse, can give. -/
def eventOf (cfg : Cfg) (fs : List Frame) (e : HostEvent) : Prop :=
  eventPresent cfg e = true ∧ (∀ bytes ok, e = .busTransmit bytes ok → ∃ f ∈ fs, f.bytes = bytes) ∧
    ∀ ms, e = .delay ms → ms = cfg.resetDelayMs

/-- What a piece of a sequencer request can do: append events. -/
structure Emitted (s t : State) (fs : List Frame) : Prop where
  frame : PortFrame s t
  trace : ∃ evs, t.trace = s.trace ++ evs ∧ ∀ e ∈ evs, eventOf s.cfg fs e

theorem Emitted.refl (s : State) (fs : List Frame) : Emitted s s fs := ⟨.refl s, [], by simp, by simp⟩

theorem Emitted.trans {s t u : State} {fs : List Frame} (h : Emitted s t fs) (h' : Emitted t u fs) :
    Emitted s u fs := by
  obtain ⟨es, h1, h2⟩ := h.trace
  obtain ⟨es', h1', h2'⟩ := h'.trace
  refine ⟨h.frame.trans h'.frame, es ++ es', by rw [h1', h1, List.append_assoc], fun e he => ?_⟩
  rcases List.mem_append.1 he with he | he
  · exact h2 e he
  · simpa only [h.frame.cfg] using h2' e he

theorem Emitted.mono {s t : State} {fs gs : List Frame} (h : Emitted s t fs) (hs : ∀ f ∈ fs, f ∈ gs) :
    Emitted s t gs := by
  obtain ⟨es, h1, h2⟩ := h.trace
  refine ⟨h.frame, es, h1, fun e he => ?_⟩
  obtain ⟨p, b, d⟩ := h2 e he
  refine ⟨p, fun bytes ok hb => ?_, d⟩
  obtain ⟨f, hf, hfb⟩ := b bytes ok hb
  exact ⟨f, hs f hf, hfb⟩

theorem resetPulse_emitted (s : State) (fs : List Frame) : Emitted s (resetPulse s) fs := by
  have h := resetPulse_spec s
  refine ⟨h.frame, _, h.trace, fun e he => ?_⟩
  obtain ⟨hm, hp⟩ := List.mem_filter.1 he
  refine ⟨hp, fun bytes ok hb => ?_, fun ms hd => ?_⟩
  · subst hb; simp at hm
  · subst hd; simpa using hm

theorem sendFrame_emitted (f : Frame) (s : State) : Emitted s (sendFrame f s).1 [f] := by
  have h := sendFrame_spec f s
  refine ⟨h.frame, _, h.trace, fun e he => ?_⟩
  obtain ⟨hm, hp⟩ := List.mem_filter.1 he
  refine ⟨hp, fun bytes ok hb => ?_, fun ms hd => ?_⟩
  · subst hb; exact ⟨f, by simp, by simpa using (by simpa using hm : bytes = f.bytes ∧ _).1.symm⟩
  · subst hd; simp at hm

theorem sendAll_emitted (fs : List Frame) (s : State) : Emitted s (sendAll fs s).1 fs := by
  induction fs generalizing s with
  | nil => exact .refl s _
  | cons f fs ih =>
    have h := (sendFrame_emitted f s).mono (gs := f :: fs) (by simp)
    exact h.trans ((ih _).mono (by simp +contextual))

theorem sendUntilFailure_emitted (fs : List Frame) (s : State) : Emitted s (sendUntilFailure fs s).1 fs := by
  induction fs generalizing s with
  | nil => exact .refl s _
  | cons f fs ih =>
    have h := (sendFrame_emitted f s).mono (gs := f :: fs) (by simp)
    cases hok : (sendFrame f s).2
    · have hs : sendUntilFailure (f :: fs) s = ((sendFrame f s).1, false) := by simp [sendUntilFailure, hok]
      rw [hs]; exact h
    · have hs : sendUntilFailure (f :: fs) s = sendUntilFailure fs (sendFrame f s).1 := by
        simp [sendUntilFailure, hok]
      rw [hs]; exact h.trans ((ih _).mono (by simp +contextual))

/-- The frames a sequencer request sends, all of them or some. -/
def framesOf (s : State) : Instr → List Frame
  | .initializeDriver => (initSeq s.cfg).map (commandFrame s.cfg)
  | .deinitializeDriver => [commandFrame s.cfg (.setDisplayOnOff 0)]
  | .display => flushFrames s.cfg s.fb
  | .sendCommand cmd => [commandFrame s.cfg cmd]
  | _ => []

theorem commandFrame_ne_nil (cfg : Cfg) (cmd : Command) : (commandFrame cfg cmd).bytes ≠ [] :=
  encode_ne_nil cfg.cmds cmd

/-- No sequencer request sends an empty transmission on a panel with columns. -/
theorem framesOf_ne_nil {s : State} (hw : 0 < s.cfg.width) {i : Instr} {f : Frame} (hf : f ∈ framesOf s i) :
    f.bytes ≠ [] := by
  cases i <;> try simp [framesOf] at hf
  case initializeDriver =>
    obtain ⟨c, -, rfl⟩ := hf
    exact commandFrame_ne_nil _ _
  case deinitializeDriver => subst hf; exact commandFrame_ne_nil _ _
  case display =>
    simp only [flushFrames, pageFrames, List.mem_flatMap, List.mem_cons, List.not_mem_nil, or_false] at hf
    obtain ⟨p, -, rfl | rfl | rfl | rfl⟩ := hf
    · exact commandFrame_ne_nil _ _
    · exact commandFrame_ne_nil _ _
    · exact commandFrame_ne_nil _ _
    · simp only [dataFrame, Memory.bytes, ne_eq, List.map_eq_nil_iff, List.range_eq_nil]; omega
  case sendCommand cmd => subst hf; exact commandFrame_ne_nil _ _

/-- What a sequencer request can do: append events, set `LC`, hand back a code, take answers. -/
structure Sequenced (i : Instr) (s t : State) : Prop where
  frame : frameOfSequencer s t
  trace : ∃ evs, t.trace = s.trace ++ evs ∧ ∀ e ∈ evs, eventOf s.cfg (framesOf s i) e
  lc : t.lc.stable = true ∨ t.lc = s.lc
  ret : t.ret = .code .ok ∨ t.ret = .code .transportFail

theorem sequenced_of_emitted {i : Instr} {s u t : State} {l : Lifecycle} (h : Emitted (s.setLc l) u (framesOf s i))
    (hfr : frameOfSequencer u t) (htr : t.trace = u.trace) (hlc : t.lc.stable = true ∨ t.lc = s.lc)
    (hret : t.ret = .code .ok ∨ t.ret = .code .transportFail) : Sequenced i s t := by
  obtain ⟨a, b, c, d, e⟩ := hfr
  have f := h.frame
  obtain ⟨evs, he, hev⟩ := h.trace
  exact ⟨⟨a.trans f.fb, b.trans f.cfg, c.trans f.font, d.trans f.refusalMark, e.trans f.inbox⟩,
    ⟨evs, htr.trans he, hev⟩, hlc, hret⟩

theorem code_of (ok : Bool) : Ret.code (codeOf ok) = .code .ok ∨ Ret.code (codeOf ok) = .code .transportFail := by
  cases ok <;> simp [codeOf]

theorem initializeEnd_spec (u : State) (ok : Bool) :
    frameOfSequencer u (initializeEnd u ok) ∧ (initializeEnd u ok).trace = u.trace ∧
      (initializeEnd u ok).lc.stable = true ∧
      ((initializeEnd u ok).ret = .code .ok ∨ (initializeEnd u ok).ret = .code .transportFail) := by
  cases ok
  · refine ⟨⟨rfl, rfl, rfl, rfl, rfl⟩, rfl, ?_, .inr rfl⟩
    show (failedInitLc _).stable = true
    unfold failedInitLc
    split <;> rfl
  · exact ⟨⟨rfl, rfl, rfl, rfl, rfl⟩, rfl, rfl, .inl rfl⟩

theorem initialize_sequenced {s t : State} (h : execInitialize s = .next t) : Sequenced .initializeDriver s t := by
  have he : Emitted (s.setLc .initializing) (initializeRun s).1 (framesOf s .initializeDriver) :=
    (resetPulse_emitted _ _).trans (sendAll_emitted _ _)
  simp only [execInitialize, Host.Outcome.next.injEq] at h
  obtain ⟨h1, h2, h3, h4⟩ := initializeEnd_spec (initializeRun s).1 (initializeRun s).2
  rw [h] at h1 h2 h3 h4
  exact sequenced_of_emitted he h1 h2 (.inl h3) h4

theorem deinitialize_sequenced {s t : State} (h : execDeinitialize s = .next t) :
    Sequenced .deinitializeDriver s t := by
  have he : Emitted (s.setLc .deinitializing) (deinitializeRun s).1 (framesOf s .deinitializeDriver) :=
    (resetPulse_emitted _ _).trans (sendFrame_emitted _ _)
  simp only [execDeinitialize, Host.Outcome.next.injEq] at h
  generalize deinitializeRun s = u at h he
  subst h
  exact sequenced_of_emitted he ⟨rfl, rfl, rfl, rfl, rfl⟩ rfl (.inl rfl) (code_of _)

theorem reportOutcome_sequenced {i : Instr} {s t : State} {r : State × Bool} (he : Emitted s r.1 (framesOf s i))
    (h : reportOutcome r = .next t) : Sequenced i s t := by
  simp only [reportOutcome, Host.Outcome.next.injEq] at h
  subst h
  exact sequenced_of_emitted (l := s.lc) he ⟨rfl, rfl, rfl, rfl, rfl⟩ rfl (.inr he.frame.lc) (code_of _)

theorem exec_sequencer {i : Instr} {s t : State} (hf : family i = .lifecycle ∨ family i = .output)
    (h : exec i s = .next t) : Sequenced i s t := by
  cases i <;> try simp [family] at hf
  case initializeDriver => exact initialize_sequenced h
  case deinitializeDriver => exact deinitialize_sequenced h
  case display => exact reportOutcome_sequenced (sendUntilFailure_emitted _ s) (whenReady_next.1 h).2
  case sendCommand cmd => exact reportOutcome_sequenced (sendFrame_emitted _ s) (whenReady_next.1 h).2

/-- DISPLAY and SEND_COMMAND leave `LC`. -/
theorem exec_output_lc {i : Instr} {s t : State} (hf : family i = .output) (h : exec i s = .next t) :
    t.lc = s.lc := by
  cases i <;> try simp [family] at hf
  case display =>
    obtain ⟨-, h⟩ := whenReady_next.1 h
    simp only [reportOutcome, Host.Outcome.next.injEq] at h
    subst h
    exact (sendUntilFailure_emitted _ s).frame.lc
  case sendCommand cmd =>
    obtain ⟨-, h⟩ := whenReady_next.1 h
    simp only [reportOutcome, Host.Outcome.next.injEq] at h
    subst h
    exact (sendFrame_emitted _ s).frame.lc

end Sys2Proof.Machine
end

