-- ==== Sys2Proof/Laws/Raster.lean ====
section
/-! SUPPORT. Which pixels the shapes visit: the line loop in closed form, and membership for rectangle, circle and
bitmap. -/

namespace Sys2Proof.Machine

/-! ## Line -/

theorem lineLoop_length (steep : Bool) (dx dy ystep : Int) (n : Nat) (x y err : Int) :
    (lineLoop steep dx dy ystep n x y err).length = n := by
  induction n generalizing x y err with
  | zero => rfl
  | succ n ih =>
    simp only [lineLoop, List.length_cons]
    split <;> simp [ih]

/-- A pixel, transposed where the line is steep. -/
def transposed (steep : Bool) (x y : Int) : Pixel := if steep then (y, x) else (x, y)

/-- The loop in closed form: pixel `k` is `j` rows on, where `j` keeps the error term `e` in `[0, dx)`. -/
theorem lineLoop_get (steep : Bool) {dx dy : Int} (ystep : Int) (h0 : 0 ≤ dy) (h1 : dy ≤ dx) (n : Nat)
    (x y err : Int) (he : 0 ≤ err) (he' : err < dx ∨ dx = 0 ∧ err = 0) (k : Nat) (hk : k < n) :
    ∃ j e : Int, (lineLoop steep dx dy ystep n x y err)[k]? = some (transposed steep (x + k) (y + ystep * j)) ∧
      e = err - k * dy + j * dx ∧ 0 ≤ e ∧ (e < dx ∨ dx = 0 ∧ e = 0) ∧ 0 ≤ j := by
  induction n generalizing x y err k with
  | zero => omega
  | succ n ih =>
    cases k with
    | zero => exact ⟨0, err, by simp [lineLoop, transposed], by simp, he, he', le_rfl⟩
    | succ k =>
      simp only [lineLoop, List.getElem?_cons_succ]
      split
      · obtain ⟨j, e, a, b, c, d, f⟩ := ih (x + 1) (y + ystep) (err - dy + dx) (by omega) (by omega) k (by omega)
        refine ⟨j + 1, e, ?_, ?_, c, d, by omega⟩
        · rw [a]; congr 2 <;> (try push_cast) <;> ring
        · rw [b]; push_cast; ring
      · obtain ⟨j, e, a, b, c, d, f⟩ := ih (x + 1) y (err - dy) (by omega) (by omega) k (by omega)
        refine ⟨j, e, ?_, ?_, c, d, f⟩
        · rw [a]; congr 2; push_cast; ring
        · rw [b]; push_cast; ring

/-- A steep line is the transpose of a shallow one. -/
theorem linePixelsOrdered_steep (x0 y0 x1 y1 : Int) :
    linePixelsOrdered true x0 y0 x1 y1 = (linePixelsOrdered false x0 y0 x1 y1).map Prod.swap := by
  have h : ∀ (dx dy ystep : Int) (n : Nat) (x y err : Int), lineLoop true dx dy ystep n x y err =
      (lineLoop false dx dy ystep n x y err).map Prod.swap := by
    intro dx dy ystep n
    induction n with
    | zero => intros; rfl
    | succ n ih =>
      intro x y err
      simp only [lineLoop, ih]
      by_cases h : err - dy < 0 <;> simp [h]
  unfold linePixelsOrdered linePixelsFrom
  split <;> simp [h]

/-! ## Rectangle -/

theorem mem_rectPixels {x y w h : Int} {filled : Bool} {px py : Int} :
    (px, py) ∈ rectPixels x y w h filled ↔ x ≤ px ∧ px < x + w ∧ y ≤ py ∧ py < y + h ∧
      (filled = true ∨ px = x ∨ px = x + w - 1 ∨ py = y ∨ py = y + h - 1) := by
  simp only [rectPixels, rectRow, rectDraws, List.mem_flatMap, List.mem_map, List.mem_filter, List.mem_range,
    Bool.or_eq_true, decide_eq_true_eq, Prod.mk.injEq]
  constructor
  · rintro ⟨j, hj, i, ⟨hi, hd⟩, rfl, rfl⟩
    refine ⟨by omega, by omega, by omega, by omega, ?_⟩
    rcases hd with hd | hd
    · exact .inl hd
    · right; omega
  · rintro ⟨h1, h2, h3, h4, hd⟩
    refine ⟨(py - y).toNat, by omega, (px - x).toNat, ⟨by omega, ?_⟩, by omega, by omega⟩
    rcases hd with hd | hd
    · exact .inl hd
    · right; omega

/-- The length of one row of an outline wider than one pixel. -/
theorem rectRow_length {x y w h : Int} (hw : 1 < w) (j : Nat) :
    (rectRow x y w h false j).length = if (j : Int) = 0 ∨ (j : Int) = h - 1 then w.toNat else 2 := by
  unfold rectRow rectDraws
  rw [List.length_map]
  split
  · rw [List.filter_eq_self.2]
    · simp
    · intro i hi
      simp
      omega
  · have : ((List.range w.toNat).filter fun (i : Nat) => false ||
        decide ((i : Int) = 0 ∨ (i : Int) = w - 1 ∨ (j : Int) = 0 ∨ (j : Int) = h - 1)).Perm [0, w.toNat - 1] := by
      refine (List.perm_ext_iff_of_nodup (List.Nodup.filter _ List.nodup_range) (by simp; omega)).2 fun i => ?_
      simp
      omega
    simpa using this.length_eq

/-! ## Circle -/

theorem mem_plot8 {x0 y0 a b : Int} {p : Pixel} : p ∈ plot8 x0 y0 a b ↔
    ((p.1 - x0 = a ∨ p.1 - x0 = -a) ∧ (p.2 - y0 = b ∨ p.2 - y0 = -b)) ∨
      ((p.1 - x0 = b ∨ p.1 - x0 = -b) ∧ (p.2 - y0 = a ∨ p.2 - y0 = -a)) := by
  obtain ⟨u, v⟩ := p
  simp only [plot8, List.mem_cons, List.not_mem_nil, or_false, Prod.mk.injEq]
  omega

/-- The midpoint rule (42_rasterizer.md R180): for the shorter offset `a`, the longer offset `b` is the one with
`b − ½` inside the ideal circle of radius `r` and `b + ½` not inside it. -/
abbrev MidpointRule (r a b : Int) : Prop := a * a + b * (b - 1) < r * r ∧ r * r ≤ a * a + b * (b + 1)

theorem midpointRule_unique {r a b b' : Int} (hb : 0 ≤ b) (hb' : 0 ≤ b') (h : MidpointRule r a b)
    (h' : MidpointRule r a b') : b = b' := by
  obtain ⟨h1, h2⟩ := h
  obtain ⟨h3, h4⟩ := h'
  rcases lt_trichotomy b b' with hlt | rfl | hlt
  · nlinarith [mul_nonneg hb (show 0 ≤ b' - b - 1 by omega), mul_nonneg hb' (show 0 ≤ b' - b - 1 by omega)]
  · rfl
  · nlinarith [mul_nonneg hb (show 0 ≤ b - b' - 1 by omega), mul_nonneg hb' (show 0 ≤ b - b' - 1 by omega)]

/-- The groups of the circle from the shorter offset `x` on. -/
def circleFrom (x0 y0 r x : Int) (p : Pixel) : Prop :=
  ∃ a b, x ≤ a ∧ a ≤ b ∧ MidpointRule r a b ∧ p ∈ plot8 x0 y0 a b

theorem circleFrom_split {x0 y0 r x y : Int} {p : Pixel} (hx : 0 ≤ x) (hxy : x ≤ y) (hm : MidpointRule r x y) :
    circleFrom x0 y0 r x p ↔ p ∈ plot8 x0 y0 x y ∨ circleFrom x0 y0 r (x + 1) p := by
  constructor
  · rintro ⟨a, b, h1, h2, h3, h4⟩
    by_cases ha : a = x
    · subst ha
      obtain rfl := midpointRule_unique (by omega) (by omega) h3 hm
      exact .inl h4
    · exact .inr ⟨a, b, by omega, h2, h3, h4⟩
  · rintro (h | ⟨a, b, h1, h⟩)
    · exact ⟨x, y, le_rfl, hxy, hm, h⟩
    · exact ⟨a, b, by omega, h⟩

theorem circleFrom_none {x0 y0 r x : Int} {p : Pixel} (hx : 0 < x) (h : r * r ≤ x * x + x * (x - 1)) :
    ¬ circleFrom x0 y0 r x p := by
  rintro ⟨a, b, h1, h2, ⟨h3, -⟩, -⟩
  nlinarith [mul_nonneg (show 0 ≤ b - x by omega) (show 0 ≤ b + x - 1 by omega),
    mul_nonneg (show 0 ≤ a - x by omega) (show 0 ≤ a + x by omega)]

/-- The loop of R180 from `x` and `y` on, its other variables being functions of the two. -/
theorem mem_circleFrom {x0 y0 r : Int} {p : Pixel} (n : Nat) (x y : Int) (hx : 0 ≤ x) (hxy : x ≤ y)
    (hn : y - x ≤ n) (hm : MidpointRule r x y) :
    (p ∈ plot8 x0 y0 x y ∨
      p ∈ circleLoop x0 y0 n ((x + 1) * (x + 1) + y * (y - 1) - r * r) (2 * x + 1) (-2 * y) x y) ↔
      circleFrom x0 y0 r x p := by
  induction n generalizing x y with
  | zero =>
    obtain rfl : x = y := by omega
    have := circleFrom_none (x0 := x0) (y0 := y0) (p := p) (show 0 < x + 1 by omega) (r := r) (by nlinarith [hm.2])
    simp [circleLoop, circleFrom_split hx hxy hm, this]
  | succ n ih =>
    rw [circleFrom_split hx hxy hm, circleLoop]
    split_ifs with hlt hf
    · by_cases hlast : x + 1 = y
      · have hnone := circleFrom_none (x0 := x0) (y0 := y0) (p := p) (r := r) (show 0 < x + 1 by omega)
          (by rw [← hlast] at hf; linarith)
        have hend : ∀ f g h, circleLoop x0 y0 n f g h (x + 1) (y - 1) = [] := by
          intro f g h
          cases n with
          | zero => rfl
          | succ n => rw [circleLoop, if_neg (by omega)]
        subst hlast
        simp only [hend, hnone, or_false, List.append_nil, mem_plot8]
        omega
      · have hgap : x + 2 ≤ y := by omega
        rw [List.mem_append, ← ih (x + 1) (y - 1) (by omega) (by omega) (by omega)
          ⟨by nlinarith [hm.1], by nlinarith⟩]
        refine or_congr_right (or_congr_right (iff_of_eq ?_))
        congr 2 <;> ring
    · refine or_congr_right ?_
      rw [List.mem_append, ← ih (x + 1) y (by omega) (by omega) (by omega)
        ⟨by nlinarith [hm.1], by nlinarith [hm.2]⟩]
      refine or_congr_right (iff_of_eq ?_)
      congr 2 <;> ring
    · obtain rfl : x = y := by omega
      have := circleFrom_none (x0 := x0) (y0 := y0) (p := p) (show 0 < x + 1 by omega) (r := r) (by nlinarith [hm.2])
      simp [this]

/-- The circle of a positive radius. -/
theorem mem_circlePixels {x0 y0 r : Int} (hr : 0 < r) (p : Pixel) :
    p ∈ circlePixels x0 y0 r ↔ circleFrom x0 y0 r 0 p := by
  rw [← mem_circleFrom r.toNat 0 r le_rfl hr.le (by omega) ⟨by nlinarith, by nlinarith⟩, circlePixels,
    if_neg (by omega), List.mem_append]
  refine or_congr_right (iff_of_eq ?_)
  congr 2; ring

theorem plot8_map (x0 y0 a b : Int) : plot8 x0 y0 a b = (plot8 0 0 a b).map fun p => (x0 + p.1, y0 + p.2) := by
  simp [plot8, sub_eq_add_neg]

theorem circleLoop_map (x0 y0 : Int) (n : Nat) (f ddx ddy x y : Int) :
    circleLoop x0 y0 n f ddx ddy x y = (circleLoop 0 0 n f ddx ddy x y).map fun p => (x0 + p.1, y0 + p.2) := by
  induction n generalizing f ddx ddy x y with
  | zero => rfl
  | succ n ih =>
    simp only [circleLoop]
    split_ifs <;> simp [← plot8_map] <;> exact ih ..

/-- The circle at any centre is the circle at the origin, moved there. -/
theorem circlePixels_map (x0 y0 r : Int) :
    circlePixels x0 y0 r = (circlePixels 0 0 r).map fun p => (x0 + p.1, y0 + p.2) := by
  unfold circlePixels
  split <;> simp [← plot8_map, circleLoop_map x0 y0]

theorem circlePixels_dedup_length (x0 y0 r : Int) :
    (circlePixels x0 y0 r).dedup.length = (circlePixels 0 0 r).dedup.length := by
  rw [circlePixels_map, List.dedup_map_of_injective (fun p q h => by
    simp only [Prod.mk.injEq, add_right_inj] at h
    exact Prod.ext h.1 h.2), List.length_map]
/-! ## Bitmap -/

theorem bitAt_eq_div (v : Byte) (b : Nat) : bitAt v b = decide (v.toNat / 2 ^ b % 2 = 1) := by
  simp [bitAt, BitVec.getLsbD, Nat.testBit_eq_decide_div_mod_eq]

theorem pastGuard_mono (g : BlitGuard) (size : Int) {a b : Int} (h : a ≤ b) (ha : pastGuard g size a = true) :
    pastGuard g size b = true := by
  revert ha
  cases g <;> simp [pastGuard] <;> omega

theorem mem_bitmapRow {past : Int → Bool} {read : Int → Byte} {x y base : Int}
    (hm : ∀ a b, a ≤ b → past a = true → past b = true) {px py : Int} (n i : Nat) :
    (px, py) ∈ bitmapRow past read x y base n i ↔
      py = y ∧ ∃ k : Nat, i ≤ k ∧ k < i + n ∧ px = x + k ∧ past (base + (k / 8 : Nat)) = false ∧
        msbBit (read (base + (k / 8 : Nat))) (k % 8) = true := by
  induction n generalizing i with
  | zero =>
    simp only [bitmapRow, List.not_mem_nil, false_iff]
    rintro ⟨-, k, h1, h2, -⟩
    omega
  | succ n ih =>
    simp only [bitmapRow]
    split
    · rename_i hp
      simp only [List.not_mem_nil, false_iff]
      rintro ⟨-, k, hk, -, -, hq, -⟩
      have hdiv : (i / 8 : Nat) ≤ k / 8 := Nat.div_le_div_right hk
      rw [hm _ _ (by omega) hp] at hq
      cases hq
    split
    · rename_i hp hb
      simp only [List.mem_cons, Prod.mk.injEq, ih]
      constructor
      · rintro (⟨rfl, rfl⟩ | ⟨rfl, k, h1, h2, h3⟩)
        · exact ⟨rfl, i, le_rfl, by omega, rfl, by simpa using hp, hb⟩
        · exact ⟨rfl, k, by omega, by omega, h3⟩
      · rintro ⟨rfl, k, h1, h2, h3, h4⟩
        by_cases hk : k = i
        · subst hk; exact .inl ⟨h3, rfl⟩
        · exact .inr ⟨rfl, k, by omega, by omega, h3, h4⟩
    · rename_i hp hb
      simp only [ih]
      constructor
      · rintro ⟨rfl, k, h1, h2, h3⟩
        exact ⟨rfl, k, by omega, by omega, h3⟩
      · rintro ⟨rfl, k, h1, h2, h3, h4, h5⟩
        by_cases hk : k = i
        · subst hk; exact absurd h5 hb
        · exact ⟨rfl, k, by omega, by omega, h3, h4, h5⟩

/-- Which pixels a blit writes: those inside the rectangle whose source byte the guard lets through and whose
source bit is set (42_rasterizer.md R185). -/
theorem mem_bitmapPixels {g : BlitGuard} {x y w h size : Int} {bmp : List Byte} {overrun : Byte} {i j : Int} :
    (x + i, y + j) ∈ bitmapPixels g x y w h bmp size overrun ↔ 0 ≤ i ∧ i < w ∧ 0 ≤ j ∧ j < h ∧
      pastGuard g size (j * ceil8 w + i / 8) = false ∧
      msbBit (byteAt bmp size overrun (j * ceil8 w + i / 8)) (i % 8).toNat = true := by
  simp only [bitmapPixels, List.mem_flatMap, List.mem_range, mem_bitmapRow fun _ _ => pastGuard_mono g size]
  constructor
  · rintro ⟨a, ha, e, k, h1, h2, h3, h4, h5⟩
    obtain rfl : j = a := by omega
    obtain rfl : i = k := by omega
    refine ⟨by omega, by omega, by omega, by omega, by exact_mod_cast h4, ?_⟩
    rw [show ((k : Int) % 8).toNat = k % 8 by omega]
    exact_mod_cast h5
  · rintro ⟨h1, h2, h3, h4, h5, h6⟩
    lift i to Nat using h1
    lift j to Nat using h3
    refine ⟨j, by omega, rfl, i, by omega, by omega, rfl, by exact_mod_cast h5, ?_⟩
    rw [show ((i : Int) % 8).toNat = i % 8 by omega] at h6
    exact_mod_cast h6

end Sys2Proof.Machine
end

