-- ==== Sys2Proof/Laws/Glyph.lean ====
section
/-! SUPPORT. Which pixels a glyph lights, and what the string loop draws. -/

namespace Sys2Proof.Machine

/-- A whole font table holds every glyph byte (10_state.md R28, 00_scope.md R12). -/
theorem fontByte_of_whole {s : State} (hI : Inv s) {ch : Byte} (h1 : s.cfg.firstChar ≤ ch.toNat)
    (h2 : ch.toNat ≤ s.cfg.lastChar) {c : Nat} (hc : c < s.cfg.glyphW) :
    s.font[(ch.toNat - s.cfg.firstChar) * s.cfg.glyphW + c]? =
      some (fontByte s.cfg s.font (ch.toNat - s.cfg.firstChar) c) := by
  have : (ch.toNat - s.cfg.firstChar) * s.cfg.glyphW + c < s.font.length := by
    rw [hI.fontWhole, Cfg.glyphCount]
    calc (ch.toNat - s.cfg.firstChar) * s.cfg.glyphW + c
        < (ch.toNat - s.cfg.firstChar) * s.cfg.glyphW + s.cfg.glyphW := by omega
      _ = (ch.toNat - s.cfg.firstChar + 1) * s.cfg.glyphW := by ring
      _ ≤ _ := Nat.mul_le_mul_right _ (by omega)
  simp [fontByte, List.getD_eq_getElem?_getD, this]

/-- The pixels of a printable code are the set bits of its glyph bytes (43_glyph_renderer.md R210). -/
theorem mem_glyphPixels {cfg : Cfg} {font : List Byte} {x y px py : Int} {ch : Byte}
    (hp : printable cfg ch = true) :
    (px, py) ∈ glyphPixels cfg font x y ch ↔ ∃ c r : Nat, c < cfg.glyphW ∧ r < cfg.glyphH ∧ px = x + c ∧
      py = y + r ∧ msbBit (fontByte cfg font (ch.toNat - cfg.firstChar) c) r = true := by
  simp only [glyphPixels, hp, if_true, glyphColumn, List.mem_flatMap, List.mem_map, List.mem_filter,
    List.mem_range, Prod.mk.injEq]
  constructor
  · rintro ⟨c, hc, r, ⟨hr, hb⟩, rfl, rfl⟩
    exact ⟨c, r, hc, hr, rfl, rfl, hb⟩
  · rintro ⟨c, r, hc, hr, rfl, rfl, hb⟩
    exact ⟨c, hc, r, ⟨hr, hb⟩, rfl, rfl⟩

/-- One round of the string loop, where the limit is not reached (43_glyph_renderer.md R215, R216). -/
theorem putString_cons (cfg : Cfg) (font : List Byte) (y : Int) (ch : Byte) (rest : List Byte) {limit : Option Nat}
    (hl : limit ≠ some 0) (x : Int) (fb : Memory) :
    putString cfg font y (ch :: rest) limit x fb =
      if ch = 0 then fb
      else if (cfg.width : Int) < x + cfg.glyphW then fb
      else putString cfg font y rest (limit.map Nat.pred) (x + cfg.glyphW + 1) (putGlyph cfg font fb x y ch) := by
  cases limit with
  | none => rfl
  | some n =>
    cases n with
    | zero => exact absurd rfl hl
    | succ n => rfl

@[simp] theorem putString_limit_zero (cfg : Cfg) (font : List Byte) (y : Int) (chars : List Byte) (x : Int)
    (fb : Memory) : putString cfg font y chars (some 0) x fb = fb := by
  cases chars <;> rfl

@[simp] theorem putString_nil (cfg : Cfg) (font : List Byte) (y : Int) (limit : Option Nat) (x : Int)
    (fb : Memory) : putString cfg font y [] limit x fb = fb := by
  cases limit with
  | none => rfl
  | some n => cases n <;> rfl

/-- The first glyph of a row of glyphs is drawn first. -/
theorem putGlyphs_cons (cfg : Cfg) (font : List Byte) (fb : Memory) (x y : Int) (ch : Byte) (chars : List Byte)
    (m : Nat) : putGlyphs cfg font fb x y (ch :: chars) (m + 1) =
      putGlyphs cfg font (putGlyph cfg font fb x y ch) (x + cfg.glyphW + 1) y chars m := by
  unfold putGlyphs
  rw [List.range_succ_eq_map, List.foldl_cons, List.foldl_map]
  simp
  congr 1
  funext fb k
  congr 1
  ring

end Sys2Proof.Machine
end

