-- ==== Sys2Proof/Laws/PerInstr.lean ====
section
/-! SUPPORT. The shape of every instruction's encoding, constructor by constructor. -/

namespace Sys2Proof.Laws

open Sys2Proof Sys2Proof.Machine

/-- The length of a command's bytes is one or two (30_encoding.md R71). -/
theorem encode_length (T : CmdTable) (c : Command) : (c.encode T).length = 1 ∨ (c.encode T).length = 2 := by
  cases c <;> simp [Command.encode, encC1, encC1S, encC2, encC2P]
  rename_i en
  cases T.chargePump en <;> simp [CpBytes.bytes]

/-- The encoding of the instruction has the shape of its kind: an encoder call is one or two bytes for the command
port (30_encoding.md R71), a request is a record for the request port that starts with an identifier of the opcode
table (30_encoding.md R85). -/
def EncodingShape.Statement (i : Instr) : Prop :=
  ∀ T : CmdTable,
    if family i = .encoder then
      (encode T i).port = .command ∧ ((encode T i).bytes.length = 1 ∨ (encode T i).bytes.length = 2)
    else (encode T i).port = .request ∧ ∃ id ∈ requestIds, (encode T i).bytes.head? = some (BitVec.ofNat 8 id)

theorem EncodingShape.setDisplayOnOff (on : Nat) : EncodingShape.Statement (.setDisplayOnOff on) :=
  fun T => ⟨rfl, encode_length T (.setDisplayOnOff on)⟩

theorem EncodingShape.setDisplayClock (div osc : Nat) : EncodingShape.Statement (.setDisplayClock div osc) :=
  fun T => ⟨rfl, encode_length T (.setDisplayClock div osc)⟩

theorem EncodingShape.setMultiplexRatio (ratio : Nat) : EncodingShape.Statement (.setMultiplexRatio ratio) :=
  fun T => ⟨rfl, encode_length T (.setMultiplexRatio ratio)⟩

theorem EncodingShape.setDisplayOffset (offset : Nat) : EncodingShape.Statement (.setDisplayOffset offset) :=
  fun T => ⟨rfl, encode_length T (.setDisplayOffset offset)⟩

theorem EncodingShape.setDisplayStartLine (line : Nat) : EncodingShape.Statement (.setDisplayStartLine line) :=
  fun T => ⟨rfl, encode_length T (.setDisplayStartLine line)⟩

theorem EncodingShape.setChargePump (en : Nat) : EncodingShape.Statement (.setChargePump en) :=
  fun T => ⟨rfl, encode_length T (.setChargePump en)⟩

theorem EncodingShape.setMemoryAddressingMode (mode : Nat) : EncodingShape.Statement (.setMemoryAddressingMode mode) :=
  fun T => ⟨rfl, encode_length T (.setMemoryAddressingMode mode)⟩

theorem EncodingShape.setContrast (value : Nat) : EncodingShape.Statement (.setContrast value) :=
  fun T => ⟨rfl, encode_length T (.setContrast value)⟩

theorem EncodingShape.setPageAddress (page : Nat) : EncodingShape.Statement (.setPageAddress page) :=
  fun T => ⟨rfl, encode_length T (.setPageAddress page)⟩

theorem EncodingShape.setColumnAddressLow (col : Nat) : EncodingShape.Statement (.setColumnAddressLow col) :=
  fun T => ⟨rfl, encode_length T (.setColumnAddressLow col)⟩

theorem EncodingShape.setColumnAddressHigh (col : Nat) : EncodingShape.Statement (.setColumnAddressHigh col) :=
  fun T => ⟨rfl, encode_length T (.setColumnAddressHigh col)⟩

theorem EncodingShape.setSegmentRemap (remap : Nat) : EncodingShape.Statement (.setSegmentRemap remap) :=
  fun T => ⟨rfl, encode_length T (.setSegmentRemap remap)⟩

theorem EncodingShape.setEntireDisplayOn (on : Nat) : EncodingShape.Statement (.setEntireDisplayOn on) :=
  fun T => ⟨rfl, encode_length T (.setEntireDisplayOn on)⟩

theorem EncodingShape.setInverseDisplay (inv : Nat) : EncodingShape.Statement (.setInverseDisplay inv) :=
  fun T => ⟨rfl, encode_length T (.setInverseDisplay inv)⟩

theorem EncodingShape.setComScanDirection (dir : Nat) : EncodingShape.Statement (.setComScanDirection dir) :=
  fun T => ⟨rfl, encode_length T (.setComScanDirection dir)⟩

theorem EncodingShape.setPrechargePeriod (pre dis : Nat) : EncodingShape.Statement (.setPrechargePeriod pre dis) :=
  fun T => ⟨rfl, encode_length T (.setPrechargePeriod pre dis)⟩

theorem EncodingShape.setVcomDeselectLevel (level : Nat) : EncodingShape.Statement (.setVcomDeselectLevel level) :=
  fun T => ⟨rfl, encode_length T (.setVcomDeselectLevel level)⟩

theorem EncodingShape.readModifyWrite : EncodingShape.Statement (.readModifyWrite) :=
  fun T => ⟨rfl, encode_length T (.readModifyWrite)⟩

theorem EncodingShape.endReadModifyWrite : EncodingShape.Statement (.endReadModifyWrite) :=
  fun T => ⟨rfl, encode_length T (.endReadModifyWrite)⟩

theorem EncodingShape.nop : EncodingShape.Statement (.nop) :=
  fun T => ⟨rfl, encode_length T (.nop)⟩

theorem EncodingShape.setPixel (x y : Int) (color : Bool) :
    EncodingShape.Statement (.setPixel x y color) :=
  fun _ => ⟨rfl, 0x01, by simp [requestIds], rfl⟩

theorem EncodingShape.getPixel (x y : Int) :
    EncodingShape.Statement (.getPixel x y) :=
  fun _ => ⟨rfl, 0x02, by simp [requestIds], rfl⟩

theorem EncodingShape.clearFrameBuffer :
    EncodingShape.Statement (.clearFrameBuffer) :=
  fun _ => ⟨rfl, 0x03, by simp [requestIds], rfl⟩

theorem EncodingShape.drawLine (x0 y0 x1 y1 : Int) :
    EncodingShape.Statement (.drawLine x0 y0 x1 y1) :=
  fun _ => ⟨rfl, 0x10, by simp [requestIds], rfl⟩

theorem EncodingShape.drawRect (x y w h : Int) (filled : Bool) :
    EncodingShape.Statement (.drawRect x y w h filled) :=
  fun _ => ⟨rfl, 0x11, by simp [requestIds], rfl⟩

theorem EncodingShape.drawCircle (x0 y0 r : Int) :
    EncodingShape.Statement (.drawCircle x0 y0 r) :=
  fun _ => ⟨rfl, 0x12, by simp [requestIds], rfl⟩

theorem EncodingShape.drawBitmap (x y w h : Int) (bmp : ByteSeq) (size : Int) (color : Bool) :
    EncodingShape.Statement (.drawBitmap x y w h bmp size color) :=
  fun _ => ⟨rfl, 0x13, by simp [requestIds], rfl⟩

theorem EncodingShape.drawChar (x y : Int) (ch : Byte) :
    EncodingShape.Statement (.drawChar x y ch) :=
  fun _ => ⟨rfl, 0x20, by simp [requestIds], rfl⟩

theorem EncodingShape.drawString (x y : Int) (str : ByteSeq) :
    EncodingShape.Statement (.drawString x y str) :=
  fun _ => ⟨rfl, 0x21, by simp [requestIds], rfl⟩

theorem EncodingShape.drawStringN (x y : Int) (str : ByteSeq) (n : Int) :
    EncodingShape.Statement (.drawStringN x y str n) :=
  fun _ => ⟨rfl, 0x22, by simp [requestIds], rfl⟩

theorem EncodingShape.initializeDriver :
    EncodingShape.Statement (.initializeDriver) :=
  fun _ => ⟨rfl, 0x30, by simp [requestIds], rfl⟩

theorem EncodingShape.deinitializeDriver :
    EncodingShape.Statement (.deinitializeDriver) :=
  fun _ => ⟨rfl, 0x31, by simp [requestIds], rfl⟩

theorem EncodingShape.display :
    EncodingShape.Statement (.display) :=
  fun _ => ⟨rfl, 0x32, by simp [requestIds], rfl⟩

theorem EncodingShape.sendCommand (cmd : Command) :
    EncodingShape.Statement (.sendCommand cmd) :=
  fun _ => ⟨rfl, 0x33, by simp [requestIds], rfl⟩

end Sys2Proof.Laws
end

