-- ==== Sys2Proof/Laws/Sequencer.lean ====
section
/-! SUPPORT. What the sequencer sends, as framed byte sequences, and what a reader of the byte stream finds. -/

namespace Sys2Proof.Machine

/-! ## Framed byte sequences -/

theorem framePairs_commands (cfg : Cfg) (cs : List Command) :
    framePairs (cs.map (commandFrame cfg)) = cs.map fun c => (Level.low, c.encode cfg.cmds) := by
  simp [framePairs, commandFrame, List.map_map, Function.comp_def]

theorem transmissionEvents_congr {s t : State} (hc : t.cfg = s.cfg) (ha : ∀ k, t.answer k = s.answer k)
    (fs : List (Level × List Byte)) (k : Nat) : transmissionEvents t k fs = transmissionEvents s k fs := by
  induction fs generalizing k with
  | nil => rfl
  | cons f fs ih => simp only [transmissionEvents, hc, ha, ih]

/-- INITIALIZE up to its last transmission (44_sequencer.md R245 to R247). -/
theorem initializeRun_spec (s : State) :
    PortFrame (s.setLc .initializing) (initializeRun s).1 ∧
      (initializeRun s).1.trace = s.trace ++ pulseEvents s.cfg ++
        transmissionEvents s 0 ((initSeq s.cfg).map fun c => (Level.low, Command.encode s.cfg.cmds c)) ∧
      ((initializeRun s).2 = true ↔ ∀ k < 7, s.answer k = true) := by
  have hp := resetPulse_spec (s.setLc .initializing)
  obtain ⟨h1, h2, h3⟩ :=
    sendAll_spec ((initSeq s.cfg).map (commandFrame s.cfg)) (resetPulse (s.setLc .initializing))
  refine ⟨hp.frame.trans h1, ?_, ?_⟩
  · show (sendAll _ _).1.trace = _
    rw [h2, hp.trace, framePairs_commands, transmissionEvents_congr (s := s) hp.frame.cfg hp.answers]
    rfl
  · show (sendAll _ _).2 = true ↔ _
    rw [h3]
    simp only [hp.answers, List.length_map]
    rfl

/-- The frames of a flush are its transmissions in order (44_sequencer.md R255). -/
theorem framePairs_flush (cfg : Cfg) (fb : Memory) :
    framePairs (flushFrames cfg fb) = flushTransmissions cfg fb (4 * cfg.pages) := by
  unfold flushFrames flushTransmissions
  induction cfg.pages with
  | zero => rfl
  | succ n ih =>
    rw [List.range_succ, List.flatMap_append, show 4 * (n + 1) = 4 * n + 1 + 1 + 1 + 1 by ring, List.range_succ,
      List.range_succ, List.range_succ, List.range_succ, framePairs, List.map_append, ← framePairs, ih]
    simp only [List.map_append, List.append_assoc]
    congr 1
    simp [pageFrames, flushTransmission, commandFrame, dataFrame, Command.encode, encC1, trunc,
      Memory.bytes]
    intro a _
    rw [show (4 * n + 3) / 4 = n by omega]

/-- The pages of a framebuffer one after another are its bytes in index order (20_memory.md R51). -/
theorem bytes_of_pages (m : Memory) (w n : Nat) :
    ((List.range n).flatMap fun p => Memory.bytes m (p * w) w) = Memory.bytes m 0 (n * w) := by
  induction n with
  | zero => simp [Memory.bytes]
  | succ n ih =>
    rw [List.range_succ, List.flatMap_append, ih]
    simp [Memory.bytes, Nat.succ_mul, List.range_add, List.map_append]

/-! ## The byte stream -/

theorem byteStreamFrom_append (dc : Option Level) (es fs : List HostEvent) :
    byteStreamFrom dc (es ++ fs) = byteStreamFrom dc es ++ byteStreamFrom (levelAfter .dc dc es) fs := by
  induction es generalizing dc with
  | nil => rfl
  | cons e es ih => cases e <;> simp [byteStreamFrom, levelAfter, ih]

/-- A reset pulse puts no byte on the bus. -/
theorem byteStreamFrom_pulse (cfg : Cfg) (dc : Option Level) : byteStreamFrom dc (pulseEvents cfg) = [] := by
  unfold pulseEvents eventPresent
  cases cfg.hasGpio <;> cases cfg.hasDelay <;> simp [byteStreamFrom, List.filter]

/-- With both capabilities each byte of a framed transmission carries its framing. -/
theorem byteStreamFrom_transmissions {s : State} (hg : s.cfg.hasGpio = true) (hb : s.cfg.hasBus = true)
    (fs : List (Level × List Byte)) (k : Nat) (dc : Option Level) :
    byteStreamFrom dc (transmissionEvents s k fs) = fs.flatMap fun f => f.2.map fun b => (some f.1, b) := by
  induction fs generalizing k dc with
  | nil => rfl
  | cons f fs ih => simp [transmissionEvents, frameEvents, eventPresent, hg, hb, byteStreamFrom, ih]

theorem framedBytes_transmissions (l : Level) (fs : List (Level × List Byte)) :
    framedBytes l (fs.flatMap fun f => f.2.map fun b => (some f.1, b)) =
      (fs.filter fun f => decide (f.1 = l)).flatMap Prod.snd := by
  induction fs with
  | nil => rfl
  | cons f fs ih =>
    obtain ⟨a, b⟩ := f
    simp only [framedBytes, List.flatMap_cons, List.filter_append, List.map_append] at ih ⊢
    rw [ih]
    by_cases h : a = l <;> simp [h, Function.comp_def, List.filter_map]

/-- A reader of concatenated commands finds them in order, where each reads back (30_encoding.md R78). -/
theorem readCommandsUpTo_encodings {T : CmdTable} {cs : List Command}
    (h : ∀ c ∈ cs, ∀ r, decodeCommand T (c.encode T ++ r) = .ok (c, r)) (n : Nat)
    (hn : (cs.flatMap (Command.encode T)).length < n) :
    readCommandsUpTo T n (cs.flatMap (Command.encode T)) = (cs, .complete) := by
  induction cs generalizing n with
  | nil =>
    cases n with
    | zero => simp at hn
    | succ n => simp [readCommandsUpTo]
  | cons c cs ih =>
    cases n with
    | zero => simp at hn
    | succ n =>
      have hl := List.length_pos_iff.2 (encode_ne_nil T c)
      simp only [List.flatMap_cons, List.length_append] at hn ⊢
      have hne : (c.encode T ++ cs.flatMap (Command.encode T)).isEmpty = false := by
        rw [List.isEmpty_eq_false_iff]
        simp [encode_ne_nil]
      simp only [readCommandsUpTo, hne, Bool.false_eq_true, if_false, h c (by simp)]
      rw [ih (fun c hc => h c (by simp [hc])) n (by omega)]

theorem readCommands_encodings {T : CmdTable} {cs : List Command}
    (h : ∀ c ∈ cs, ∀ r, decodeCommand T (c.encode T ++ r) = .ok (c, r)) :
    readCommands T (cs.flatMap (Command.encode T)) = (cs, .complete) :=
  readCommandsUpTo_encodings h _ (by omega)

/-! ## One step -/

/-- What a step that answers a next state did: nothing with nothing waiting, or one instruction. -/
theorem step_next {s t : State} (h : step s = .next t) : t = s ∧ s.inbox = [] ∨
    ∃ iss rest i left, s.inbox = iss :: rest ∧ s.lc.stable = true ∧ decode s.cfg.cmds iss = .ok (i, left) ∧
      exec i (s.setInbox rest) = .next t := by
  unfold step at h
  split at h
  · cases h
  split at h
  · cases h
    exact .inl ⟨rfl, by assumption⟩
  split at h
  · unfold runIssue at h
    split at h
    · exact .inr ⟨_, _, _, _, by assumption, by assumption, by assumption, h⟩
    · cases h
  · cases h

end Sys2Proof.Machine
end

