-- ==== Sys2Proof/Tests/Slice0.lean ====
section
/-! SUPPORT. Tests against the spec's own words and vectors (95_test_vectors.md), the WellFormed smoke, and a witness
for the hypotheses of every obligation. -/

set_option Elab.async false -- one theorem at a time: many kernel checks at once ask for too many threads

namespace Sys2Proof.Tests

open Sys2Proof Sys2Proof.Machine

/-! ## Helpers -/

/-- The next state of an outcome. -/
def next? : Host.Outcome State Fault Refusal → Option State
  | .next t => some t
  | .fault _ => none
  | .refused _ => none

/-- The refusal of an outcome. -/
def refusal? : Host.Outcome State Fault Refusal → Option Refusal
  | .next _ => none
  | .fault _ => none
  | .refused r => some r

/-- The instruction a decoding answers. -/
def instr? : Except DecodeError (Instr × List Byte) → Option Instr
  | .ok (i, _) => some i
  | .error _ => none

/-- The instruction command bytes spell. -/
def command? (bs : List Byte) : Option Instr := instr? (decode CmdTable.reference ⟨.command, bs⟩)

/-- The instruction a record spells. -/
def request? (bs : List Byte) : Option Instr := instr? (decode CmdTable.reference ⟨.request, bs⟩)

/-- Sample charge-pump bytes; the spec leaves them open (92_eei_decisions.md D16). -/
def pumpOff : CpBytes := .two 0xAD 0x8A

/-- Sample charge-pump bytes. -/
def pumpOn : CpBytes := .two 0xAD 0x8B

/-- The reference configuration with the open parameters at sample values. -/
def cfg : Cfg :=
  { Cfg.reference with cmds := .withPump pumpOff pumpOn, initClockDiv := 1, initClockOsc := 15, dcPin := 1, rstPin := 2, ctx := 0 }

/-- The test font `TF` of 95_test_vectors.md section 0. -/
def fontTF : List Byte :=
  List.replicate 165 0 ++ [0x7E, 0x90, 0x90, 0x90, 0x7E, 0xFE, 0x92, 0x92, 0x92, 0x6C] ++ List.replicate 300 0

/-- The state right after construction. -/
def start : State := .constructed cfg fontTF

/-- READY, with the host's answers given. -/
def ready (answers : List Bool) : State := { start with lc := .ready, busAnswers := answers }

/-- `FB` after an instruction. -/
def fbAfter (i : Instr) (s : State) : Option Memory := (next? (exec i s)).map State.fb

/-- The result of an instruction. -/
def retAfter (i : Instr) (s : State) : Option Ret := (next? (exec i s)).map State.ret

/-- The trace after an instruction. -/
def traceAfter (i : Instr) (s : State) : Option (List HostEvent) := (next? (exec i s)).map State.trace

/-- A panel of one page and eight columns, with a one-glyph font. -/
def tiny : State :=
  .constructed { cfg with width := 8, height := 8, glyphW := 1, glyphH := 1, firstChar := 65, lastChar := 65 } [0x80]

/-- The same panel, READY. -/
def tinyReady (answers : List Bool) : State := { tiny with lc := .ready, busAnswers := answers }

theorem test_start_meets_invariant : Inv start :=
  ⟨by decide, by decide +kernel, by decide, by simp [start, State.constructed], rfl,
    by simp [start, State.constructed]⟩

theorem test_ready_meets_invariant (answers : List Bool) : Inv (ready answers) :=
  ⟨test_start_meets_invariant.1, test_start_meets_invariant.2, test_start_meets_invariant.3,
    test_start_meets_invariant.4, rfl, test_start_meets_invariant.6⟩

theorem test_tinyReady_meets_invariant (answers : List Bool) : Inv (tinyReady answers) :=
  ⟨(by decide : tiny.cfg.legal = true), rfl, Memory.wf_nil, by simp [tinyReady, tiny, State.constructed], rfl,
    by simp [tinyReady, tiny, State.constructed]⟩

/-! ## WellFormed smoke: an ill-formed term for each check -/

theorem test_illformed_setDisplayOnOff : Instr.wellFormed (.setDisplayOnOff 2) = false := by decide

theorem test_illformed_setMultiplexRatio : Instr.wellFormed (.setMultiplexRatio 128) = false := by decide

theorem test_illformed_setDisplayOffset : Instr.wellFormed (.setDisplayOffset 128) = false := by decide

theorem test_illformed_setDisplayStartLine : Instr.wellFormed (.setDisplayStartLine 128) = false := by decide

theorem test_illformed_setChargePump : Instr.wellFormed (.setChargePump 2) = false := by decide

theorem test_illformed_setMemoryAddressingMode : Instr.wellFormed (.setMemoryAddressingMode 2) = false := by decide

theorem test_illformed_setContrast : Instr.wellFormed (.setContrast 256) = false := by decide

theorem test_illformed_setPageAddress : Instr.wellFormed (.setPageAddress 16) = false := by decide

theorem test_illformed_setColumnAddressLow : Instr.wellFormed (.setColumnAddressLow 16) = false := by decide

theorem test_illformed_setColumnAddressHigh : Instr.wellFormed (.setColumnAddressHigh 8) = false := by decide

theorem test_illformed_setSegmentRemap : Instr.wellFormed (.setSegmentRemap 2) = false := by decide

theorem test_illformed_setEntireDisplayOn : Instr.wellFormed (.setEntireDisplayOn 2) = false := by decide

theorem test_illformed_setInverseDisplay : Instr.wellFormed (.setInverseDisplay 2) = false := by decide

theorem test_illformed_setComScanDirection : Instr.wellFormed (.setComScanDirection 2) = false := by decide

theorem test_illformed_setVcomDeselectLevel : Instr.wellFormed (.setVcomDeselectLevel 256) = false := by decide

theorem test_illformed_getPixel : Instr.wellFormed (.getPixel 0 2147483648) = false := by decide

theorem test_illformed_setPixel : Instr.wellFormed (.setPixel (-2147483649) 0 true) = false := by decide

theorem test_illformed_drawLine : Instr.wellFormed (.drawLine 0 0 0 2147483648) = false := by decide

theorem test_illformed_drawRect : Instr.wellFormed (.drawRect 0 0 0 (-2147483649) true) = false := by decide

theorem test_illformed_drawCircle : Instr.wellFormed (.drawCircle 0 0 2147483648) = false := by decide

theorem test_illformed_drawBitmap : Instr.wellFormed (.drawBitmap 0 0 0 0 ⟨[], false⟩ 2147483648 true) = false := by decide

theorem test_illformed_drawChar : Instr.wellFormed (.drawChar 2147483648 0 65) = false := by decide

theorem test_illformed_drawString : Instr.wellFormed (.drawString 0 2147483648 ⟨[], false⟩) = false := by decide

theorem test_illformed_drawStringN : Instr.wellFormed (.drawStringN 0 0 ⟨[], false⟩ 2147483648) = false := by decide

theorem test_illformed_sendCommand : Instr.wellFormed (.sendCommand (.setContrast 4294967296)) = false := by decide

theorem test_illformed_setDisplayClock_div : Instr.wellFormed (.setDisplayClock 16 0) = false := by decide

theorem test_illformed_setDisplayClock_osc : Instr.wellFormed (.setDisplayClock 0 16) = false := by decide

theorem test_illformed_setPrechargePeriod_pre : Instr.wellFormed (.setPrechargePeriod 16 0) = false := by decide

theorem test_illformed_setPrechargePeriod_dis : Instr.wellFormed (.setPrechargePeriod 0 16) = false := by decide

theorem test_illformed_string_too_long (data : List Byte) (h : data.length = 4294967296) :
    Instr.wellFormed (.drawString 0 0 ⟨data, false⟩) = false := by
  simp [Instr.wellFormed, ByteSeq.fitsRecord, fitsField, h]

/-! ## Decoding: words written out from the spec's encodings (opcode_table.json; 30_encoding.md R76, R77, R85) -/

theorem test_decode_setDisplayOnOff : decodeTableWord 8 0b10101111 = some (.setDisplayOnOff 1) := by decide +kernel

theorem test_decode_setDisplayClock : decodeTableWord 16 0b11010101_11110001 = some (.setDisplayClock 1 15) := by decide +kernel

theorem test_decode_setMultiplexRatio : decodeTableWord 16 0b10101000_01111111 = some (.setMultiplexRatio 127) := by decide +kernel

theorem test_decode_setDisplayOffset : decodeTableWord 16 0b11010011_01100000 = some (.setDisplayOffset 96) := by decide +kernel

theorem test_decode_setDisplayStartLine : decodeTableWord 16 0b11011100_01111111 = some (.setDisplayStartLine 127) := by decide +kernel

theorem test_decode_setContrast : decodeTableWord 16 0b10000001_10000000 = some (.setContrast 128) := by decide +kernel

theorem test_decode_setPageAddress : decodeTableWord 8 0b10110101 = some (.setPageAddress 5) := by decide +kernel

theorem test_decode_setColumnAddressLow : decodeTableWord 8 0b00001111 = some (.setColumnAddressLow 15) := by decide +kernel

theorem test_decode_setColumnAddressHigh : decodeTableWord 8 0b00010111 = some (.setColumnAddressHigh 7) := by decide +kernel

theorem test_decode_setSegmentRemap : decodeTableWord 8 0b10100001 = some (.setSegmentRemap 1) := by decide +kernel

theorem test_decode_setEntireDisplayOn : decodeTableWord 8 0b10100101 = some (.setEntireDisplayOn 1) := by decide +kernel

theorem test_decode_setInverseDisplay : decodeTableWord 8 0b10100111 = some (.setInverseDisplay 1) := by decide +kernel

theorem test_decode_setComScanDirection : decodeTableWord 8 0b11001000 = some (.setComScanDirection 1) := by decide +kernel

theorem test_decode_setPrechargePeriod : decodeTableWord 16 0b11011001_11110001 = some (.setPrechargePeriod 1 15) := by decide +kernel

theorem test_decode_setVcomDeselectLevel : decodeTableWord 16 0b11011011_00110101 = some (.setVcomDeselectLevel 53) := by decide +kernel

theorem test_decode_readModifyWrite : decodeTableWord 8 0b11100000 = some .readModifyWrite := by decide +kernel

theorem test_decode_endReadModifyWrite : decodeTableWord 8 0b11101110 = some .endReadModifyWrite := by decide +kernel

theorem test_decode_nop : decodeTableWord 8 0b11100011 = some .nop := by decide +kernel

/-- The word 0x20 is a request identifier in the table's numbering (log 12), so this one goes through its port. -/
theorem test_decode_setMemoryAddressingMode : command? [0b00100001] = some (.setMemoryAddressingMode 1) := by
  decide +kernel

theorem test_decode_setColumnAddressHigh_zero : command? [0b00010000] = some (.setColumnAddressHigh 0) := by
  decide +kernel

/-- The table has no word for this row; the bytes are a parameter (40_command_encoder.md R105). -/
theorem test_decode_setChargePump :
    instr? (decode (.withPump pumpOff pumpOn) ⟨.command, [0xAD, 0x8B]⟩) = some (.setChargePump 1) := by
  decide +kernel

theorem test_decode_setPixel :
    request? [0x01, 0, 0, 0, 3, 0, 0, 0, 9, 1] =
      some (.setPixel 3 9 true) := by
  decide +kernel

theorem test_decode_getPixel :
    request? [0x02, 0xFF, 0xFF, 0xFF, 0xFF, 0, 0, 0, 5] =
      some (.getPixel (-1) 5) := by
  decide +kernel

theorem test_decode_clearFrameBuffer :
    request? [0x03] =
      some .clearFrameBuffer := by
  decide +kernel

theorem test_decode_drawLine :
    request? [0x10, 0, 0, 0, 10, 0, 0, 0, 0, 0, 0, 0, 0, 0, 0, 0, 3] =
      some (.drawLine 10 0 0 3) := by
  decide +kernel

theorem test_decode_drawRect :
    request? [0x11, 0, 0, 0, 120, 0, 0, 0, 0, 0, 0, 0, 20, 0, 0, 0, 4, 0] =
      some (.drawRect 120 0 20 4 false) := by
  decide +kernel

theorem test_decode_drawCircle :
    request? [0x12, 0, 0, 0, 20, 0, 0, 0, 3, 0, 0, 0, 3] =
      some (.drawCircle 20 3 3) := by
  decide +kernel

theorem test_decode_drawBitmap :
    request? [0x13, 0, 0, 0, 124, 0, 0, 0, 8, 0, 0, 0, 8, 0, 0, 0, 2, 0, 0, 0, 0, 2, 0xFF, 0x81, 0, 0, 0, 2, 1] =
      some (.drawBitmap 124 8 8 2 ⟨[0xFF, 0x81], false⟩ 2 true) := by
  decide +kernel

theorem test_decode_drawChar :
    request? [0x20, 0, 0, 0, 0, 0xFF, 0xFF, 0xFF, 0xFF, 0x41] =
      some (.drawChar 0 (-1) 0x41) := by
  decide +kernel

theorem test_decode_drawString :
    request? [0x21, 0xFF, 0xFF, 0xFF, 0xFD, 0, 0, 0, 8, 0, 0, 0, 0, 3, 0x41, 0x07, 0x42] =
      some (.drawString (-3) 8 ⟨[0x41, 0x07, 0x42], false⟩) := by
  decide +kernel

theorem test_decode_drawStringN :
    request? [0x22, 0, 0, 0, 0, 0, 0, 0, 24, 0, 0, 0, 0, 2, 0x41, 0x42, 0, 0, 0, 1] =
      some (.drawStringN 0 24 ⟨[0x41, 0x42], false⟩ 1) := by
  decide +kernel

theorem test_decode_initializeDriver :
    request? [0x30] =
      some .initializeDriver := by
  decide +kernel

theorem test_decode_deinitializeDriver :
    request? [0x31] =
      some .deinitializeDriver := by
  decide +kernel

theorem test_decode_display :
    request? [0x32] =
      some .display := by
  decide +kernel

theorem test_decode_sendCommand :
    request? [0x33, 7, 0, 0, 0, 127] =
      some (.sendCommand (.setContrast 127)) := by
  decide +kernel

/-- 95_test_vectors.md 2.1, decoder vectors. -/
theorem test_read_payload_is_not_a_command :
    readCommands CmdTable.reference [0x81, 0xAE, 0xB3] = ([.setContrast 174, .setPageAddress 3], .complete) := by
  decide +kernel

theorem test_read_invalid : readCommands (.withPump pumpOff pumpOn) [0xC4] = ([], .invalid 0xC4) := by decide +kernel

/-! ## Meanings: 95_test_vectors.md parts 1 and 2 -/

/-- 95_test_vectors.md 2.1. -/
theorem test_setDisplayOnOff : retAfter (.setDisplayOnOff 3) start = some (.bytes [0xAF]) := by decide +kernel

/-- 95_test_vectors.md 2.1. -/
theorem test_setDisplayClock : retAfter (.setDisplayClock 0 5) start = some (.bytes [0xD5, 0x50]) := by decide +kernel

/-- 95_test_vectors.md 2.1. -/
theorem test_setMultiplexRatio : retAfter (.setMultiplexRatio 255) start = some (.bytes [0xA8, 0x7F]) := by decide +kernel

/-- 95_test_vectors.md 2.1. -/
theorem test_setDisplayOffset : retAfter (.setDisplayOffset 200) start = some (.bytes [0xD3, 0x48]) := by decide +kernel

/-- 95_test_vectors.md 2.1. -/
theorem test_setDisplayStartLine : retAfter (.setDisplayStartLine 128) start = some (.bytes [0xDC, 0x00]) := by decide +kernel

/-- 95_test_vectors.md 2.1. -/
theorem test_setChargePump : retAfter (.setChargePump 2) start = some (.bytes pumpOff.bytes) := by decide +kernel

/-- 95_test_vectors.md 2.1. -/
theorem test_setMemoryAddressingMode : retAfter (.setMemoryAddressingMode 1) start = some (.bytes [0x21]) := by decide +kernel

/-- 95_test_vectors.md 2.1. -/
theorem test_setContrast : retAfter (.setContrast 300) start = some (.bytes [0x81, 0x2C]) := by decide +kernel

/-- 95_test_vectors.md 2.1. -/
theorem test_setPageAddress : retAfter (.setPageAddress 21) start = some (.bytes [0xB5]) := by decide +kernel

/-- 95_test_vectors.md 2.1. -/
theorem test_setColumnAddressLow : retAfter (.setColumnAddressLow 15) start = some (.bytes [0x0F]) := by decide +kernel

/-- 95_test_vectors.md 2.1. -/
theorem test_setColumnAddressHigh : retAfter (.setColumnAddressHigh 8) start = some (.bytes [0x10]) := by decide +kernel

/-- 95_test_vectors.md 2.1. -/
theorem test_setSegmentRemap : retAfter (.setSegmentRemap 1) start = some (.bytes [0xA1]) := by decide +kernel

/-- 95_test_vectors.md 2.1. -/
theorem test_setEntireDisplayOn : retAfter (.setEntireDisplayOn 1) start = some (.bytes [0xA5]) := by decide +kernel

/-- 95_test_vectors.md 2.1. -/
theorem test_setInverseDisplay : retAfter (.setInverseDisplay 1) start = some (.bytes [0xA7]) := by decide +kernel

/-- 95_test_vectors.md 2.1. -/
theorem test_setComScanDirection : retAfter (.setComScanDirection 1) start = some (.bytes [0xC8]) := by decide +kernel

/-- 95_test_vectors.md 2.1. -/
theorem test_setPrechargePeriod : retAfter (.setPrechargePeriod 1 15) start = some (.bytes [0xD9, 0xF1]) := by decide +kernel

/-- 95_test_vectors.md 2.1. -/
theorem test_setVcomDeselectLevel : retAfter (.setVcomDeselectLevel 0x35) start = some (.bytes [0xDB, 0x35]) := by decide +kernel

/-- 95_test_vectors.md 2.1. -/
theorem test_readModifyWrite : retAfter (.readModifyWrite) start = some (.bytes [0xE0]) := by decide +kernel

/-- 95_test_vectors.md 2.1. -/
theorem test_endReadModifyWrite : retAfter (.endReadModifyWrite) start = some (.bytes [0xEE]) := by decide +kernel

/-- 95_test_vectors.md 2.1. -/
theorem test_nop : retAfter (.nop) start = some (.bytes [0xE3]) := by decide +kernel

/-- 95_test_vectors.md S4. -/
theorem test_setPixel_set : fbAfter (.setPixel 3 9 true) start = some [(131, 0x02)] := by
  decide +kernel

/-- 95_test_vectors.md 2.2. -/
theorem test_setPixel_clear : fbAfter (.setPixel 5 4 false) { start with fb := [(5, 0xFF)] } = some [(5, 0xEF)] := by
  decide +kernel

/-- 95_test_vectors.md 2.2. -/
theorem test_getPixel_lit : retAfter (.getPixel 3 9) { start with fb := [(131, 0x02)] } = some (.bool true) := by
  decide +kernel

/-- 95_test_vectors.md 2.2. -/
theorem test_getPixel_outside : retAfter (.getPixel 128 5) { start with fb := [(133, 0xFF)] } = some (.bool false) := by
  decide +kernel

/-- 95_test_vectors.md 2.2. -/
theorem test_clearFrameBuffer : fbAfter .clearFrameBuffer { start with fb := [(0, 0xFF), (2047, 0xFF)] } = some [] := by
  decide +kernel

/-- 95_test_vectors.md S7. -/
theorem test_drawLine_shallow : fbAfter (.drawLine 5 2 0 0) start =
    some [(0, 0x01), (1, 0x01), (2, 0x02), (3, 0x02), (4, 0x04), (5, 0x04)] := by
  decide +kernel

/-- 95_test_vectors.md 2.3. -/
theorem test_drawLine_order : linePixels 10 0 0 3 = [(0, 3), (1, 3), (2, 2), (3, 2), (4, 2), (5, 2), (6, 1), (7, 1), (8, 1),
    (9, 0), (10, 0)] := by
  decide +kernel

/-- 95_test_vectors.md 2.4. -/
theorem test_drawRect_outline : fbAfter (.drawRect 0 6 3 4 false) start =
    some [(0, 0xC0), (1, 0x40), (2, 0xC0), (128, 0x03), (129, 0x02), (130, 0x03)] := by
  decide +kernel

/-- 95_test_vectors.md 2.4. -/
theorem test_drawRect_clipped : fbAfter (.drawRect (-2) (-2) 4 4 false) start = some [(0, 0x02), (1, 0x03)] := by
  decide +kernel

/-- 95_test_vectors.md 2.5. -/
theorem test_drawCircle_three : fbAfter (.drawCircle 4 4 3) start = some [(1, 0x38), (2, 0x44), (3, 0x82), (4, 0x82), (5, 0x82), (6, 0x44),
    (7, 0x38)] := by
  decide +kernel

/-- 95_test_vectors.md 2.5. -/
theorem test_drawCircle_clipped : fbAfter (.drawCircle 0 0 2) start = some [(0, 0x04), (1, 0x04), (2, 0x03)] := by
  decide +kernel

/-- 95_test_vectors.md 2.6. -/
theorem test_drawBitmap_guard : fbAfter (.drawBitmap 0 0 10 2 ⟨[0xFF, 0xC0, 0x80, 0x40], false⟩ 3 true) start =
    some [(0, 0x03), (1, 0x01), (2, 0x01), (3, 0x01), (4, 0x01), (5, 0x01), (6, 0x01), (7, 0x01), (8, 0x01), (9, 0x01)] := by
  decide +kernel

/-- 95_test_vectors.md 2.6. -/
theorem test_drawBitmap_clear : fbAfter (.drawBitmap 0 0 8 1 ⟨[0xA0], false⟩ 1 false) { start with fb := [(0, 0xFF), (1, 0xFF)] } =
    some [(0, 0xFE), (1, 0xFF)] := by
  decide +kernel

/-- 95_test_vectors.md 2.7. -/
theorem test_drawChar_offset : fbAfter (.drawChar 0 3 0x41) start =
    some [(0, 0xF0), (1, 0x48), (2, 0x48), (3, 0x48), (4, 0xF0), (128, 0x03), (132, 0x03)] := by
  decide +kernel

/-- 95_test_vectors.md 2.7. -/
theorem test_drawChar_nonprintable : fbAfter (.drawChar 0 0 0x7F) start = some [] := by
  decide +kernel

/-- 95_test_vectors.md 2.7. -/
theorem test_drawString_nonprintable : fbAfter (.drawString (-3) 0 ⟨[0x41, 0x42], false⟩) start =
    some [(0, 0x09), (1, 0x7E), (3, 0x7F), (4, 0x49), (5, 0x49), (6, 0x49), (7, 0x36)] := by
  decide +kernel

/-- 95_test_vectors.md 2.7. -/
theorem test_drawString_edge : fbAfter (.drawString 120 0 ⟨[0x41, 0x42], false⟩) start =
    some [(120, 0x7E), (121, 0x09), (122, 0x09), (123, 0x09), (124, 0x7E)] := by
  decide +kernel

/-- 95_test_vectors.md 2.7. -/
theorem test_drawStringN_limit : fbAfter (.drawStringN 0 0 ⟨[0x41, 0x07, 0x42], false⟩ 2) start =
    some [(0, 0x7E), (1, 0x09), (2, 0x09), (3, 0x09), (4, 0x7E)] := by
  decide +kernel

/-- 95_test_vectors.md 2.7. -/
theorem test_drawStringN_negative : refusal? (exec (.drawStringN 0 0 ⟨[0x41, 0x42], false⟩ (-1)) start) = some .operandRange := by
  decide +kernel

/-- 95_test_vectors.md V2 and V4. -/
theorem test_initialize_no_delay : traceAfter .initializeDriver
      { start with cfg := { cfg with hasDelay := false }, busAnswers := [true, true, false, true, true, true, true] } =
    some [.gpioWrite .rst .low, .gpioWrite .rst .high,
      .gpioWrite .dc .low, .busTransmit [0xAE] true, .gpioWrite .dc .low, .busTransmit [0xD5, 0xF1] true,
      .gpioWrite .dc .low, .busTransmit [0xA8, 0x7F] false, .gpioWrite .dc .low, .busTransmit [0xD3, 0x00] true,
      .gpioWrite .dc .low, .busTransmit [0xDC, 0x00] true, .gpioWrite .dc .low, .busTransmit [0xAD, 0x8B] true,
      .gpioWrite .dc .low, .busTransmit [0xAF] true] := by
  decide +kernel

/-- 95_test_vectors.md V3. -/
theorem test_initialize_no_bus : (next? (exec .initializeDriver { start with cfg := { cfg with hasBus := false } })).map
      (fun t => (t.trace.length, t.ret, t.lc)) = some (11, .code .ok, .ready) := by
  decide +kernel

/-- 95_test_vectors.md V8. -/
theorem test_deinitialize_fails : (next? (exec .deinitializeDriver (ready [false]))).map (fun t => (t.trace, t.ret, t.lc)) =
    some ([.gpioWrite .rst .low, .delay 100, .gpioWrite .rst .high, .delay 100, .gpioWrite .dc .low,
      .busTransmit [0xAE] false], .code .transportFail, .uninitialized) := by
  decide +kernel

/-- 95_test_vectors.md V10. -/
theorem test_display_fails_fast : (next? (exec .display (ready [true, true, true, true, true, false]))).map
      (fun t => (t.trace.length, t.trace.getLast?, t.ret, t.lc)) =
    some (12, some (.busTransmit [0x00] false), .code .transportFail, .ready) := by
  decide +kernel

/-- 95_test_vectors.md V11. -/
theorem test_display_no_bus : (next? (exec .display { ready [] with cfg := { cfg with hasBus := false } })).map
      (fun t => (t.trace.length, t.trace.take 4, t.ret)) =
    some (64, [.gpioWrite .dc .low, .gpioWrite .dc .low, .gpioWrite .dc .low, .gpioWrite .dc .high], .code .ok) := by
  decide +kernel

/-- 95_test_vectors.md V14. -/
theorem test_sendCommand_truncates : (next? (exec (.sendCommand (.setPageAddress 21)) (ready [true]))).map (fun t => (t.trace, t.ret)) =
    some ([.gpioWrite .dc .low, .busTransmit [0xB5] true], .code .ok) := by
  decide +kernel

/-- 95_test_vectors.md V16. -/
theorem test_sendCommand_not_ready : refusal? (exec (.sendCommand (.setContrast 128)) start) = some .notReady := by
  decide +kernel

/-- 95_test_vectors.md 2.9. -/
theorem test_unknown_request : refusal? (step { start with inbox := [⟨.request, [0x40]⟩] }) = some .unknownRequest := by
  decide +kernel

/-! ## Witnesses: the hypotheses of each obligation can be met, at the ends of their ranges -/

theorem witness_ConstructionState_legal :
    next? (construct { cfg with width := 1, height := 8, glyphW := 1, glyphH := 1, firstChar := 255, lastChar := 255 } [0]) ≠
      none ∧ next? (construct { cfg with width := 128, height := 128, glyphH := 8, firstChar := 0 } []) ≠ none := by
  decide +kernel

theorem witness_ConstructionState_illegal :
    refusal? (construct { cfg with width := 129 } []) = some .config ∧
    refusal? (construct { cfg with width := 0 } []) = some .config ∧
    refusal? (construct { cfg with height := 7 } []) = some .config ∧
    refusal? (construct { cfg with height := 136 } []) = some .config ∧
    refusal? (construct { cfg with height := 12 } []) = some .config ∧
    refusal? (construct { cfg with glyphW := 0 } []) = some .config ∧
    refusal? (construct { cfg with glyphH := 0 } []) = some .config ∧
    refusal? (construct { cfg with glyphH := 9 } []) = some .config ∧
    refusal? (construct { cfg with firstChar := 127 } []) = some .config ∧
    refusal? (construct { cfg with lastChar := 256 } []) = some .config := by
  decide +kernel

theorem witness_ConstructionLeavesZeroUninitialized : ∃ t, construct cfg fontTF = .next t := ⟨_, rfl⟩

theorem witness_StepKeepsInvariant : ∃ s t, Inv s ∧ s.inbox ≠ [] ∧ step s = .next t :=
  ⟨{ start with inbox := [⟨.request, [0x30]⟩] }, _,
    ⟨test_start_meets_invariant.1, test_start_meets_invariant.2, test_start_meets_invariant.3,
      test_start_meets_invariant.4, rfl, test_start_meets_invariant.6⟩, by simp, rfl⟩

theorem witness_StepRunsDecodedInstruction : ∃ s iss rest i left, State.refusalMark s = none ∧ s.lc.stable = true ∧
    s.inbox = iss :: rest ∧ decode s.cfg.cmds iss = .ok (i, left) :=
  ⟨{ start with inbox := [⟨.request, [0x03]⟩] }, _, _, _, _, rfl, rfl, rfl, rfl⟩

theorem witness_StepWithoutInstruction :
    (start.refusalMark = none ∧ start.inbox = []) ∧
    { start with refusalMark := some .notReady }.refusalMark = some .notReady ∧
    { start with inbox := [⟨.request, [0x03]⟩], lc := .initializing }.lc = .initializing ∧
    { start with inbox := [⟨.request, [0x03]⟩], lc := .deinitializing }.lc = .deinitializing :=
  ⟨⟨rfl, rfl⟩, rfl, rfl, rfl⟩

theorem witness_UnknownRequestsRefused :
    refusal? (step { start with inbox := [⟨.request, [0x00]⟩] }) = some .unknownRequest ∧
    refusal? (step { start with inbox := [⟨.request, [0xFF, 1]⟩] }) = some .unknownRequest ∧
    refusal? (step { start with inbox := [⟨.formatted, []⟩] }) = some .formattedStringNotModelled := by
  decide +kernel

theorem witness_InvalidCommandBytesRefused :
    [0x18, 0x1F, 0x22, 0x80, 0x82, 0xAC, 0xC1, 0xC4, 0xFF].all (fun b : Byte =>
      decide (decode cfg.cmds ⟨.command, [b, 0x00]⟩ = .error (.invalidCommand b)) && decide (b ≠ pumpOff.bytes.headD 0) &&
        decide (b ≠ pumpOn.bytes.headD 0)) = true ∧
    refusal? (step { start with inbox := [⟨.command, [0x30]⟩] }) = some .invalidCommand := by
  decide +kernel

theorem witness_RefusalMarksAndEndsRun :
    step { start with inbox := [⟨.request, [0x32]⟩] } = .refused .notReady := rfl

theorem witness_CommandBytesDecodeBack :
    (Instr.ofCommand (.setContrast 255)).wellFormed = true ∧ (Instr.ofCommand (.setChargePump 1)).wellFormed = true ∧
      pumpReadable pumpOff pumpOn = true := by
  decide +kernel

theorem witness_RequestRecordsDecodeBack :
    Instr.wellFormed (.drawStringN (-2147483648) 2147483647 ⟨[0, 255], true⟩ 0) = true ∧
      family (.drawStringN (-2147483648) 2147483647 ⟨[0, 255], true⟩ 0) ≠ .encoder ∧
      Instr.wellFormed (.sendCommand (.setContrast 4294967295)) = true := by
  decide +kernel

theorem witness_OneByteCommandsKeepPrefixAndField :
    Command.encode cfg.cmds (.setDisplayOnOff 3) = [0xAF] ∧
    Command.encode cfg.cmds (.setMemoryAddressingMode 1) = [0x21] ∧
    Command.encode cfg.cmds (.setPageAddress 31) = [0xBF] ∧
    Command.encode cfg.cmds (.setColumnAddressLow 15) = [0x0F] ∧
    Command.encode cfg.cmds (.setColumnAddressHigh 7) = [0x17] ∧
    Command.encode cfg.cmds (.setSegmentRemap 1) = [0xA1] ∧
    Command.encode cfg.cmds (.setEntireDisplayOn 1) = [0xA5] ∧
    Command.encode cfg.cmds (.setInverseDisplay 1) = [0xA7] ∧
    Command.encode cfg.cmds (.setComScanDirection 1) = [0xC8] := by
  decide +kernel

theorem witness_CoreCommandBytes : start.cfg.cmds = .withPump pumpOff pumpOn := rfl

theorem witness_ExtendedCommandBytes : State.reset.cfg.cmds = .withPump Config.chargePumpOff Config.chargePumpOn := rfl

theorem witness_SetPixelWritesOneBit :
    Memory.wf start.fb ∧ Admitted start.cfg [0, 127] ∧ Admitted start.cfg [-32768, 32767] ∧
      fbAfter (.setPixel 127 127 true) start = some [(2047, 0x80)] ∧ fbAfter (.setPixel 0 0 true) start = some [(0, 0x01)] ∧
      fbAfter (.setPixel (-1) 0 true) start = some [] ∧ fbAfter (.setPixel 128 0 true) start = some [] ∧
      fbAfter (.setPixel 0 (-1) true) start = some [] ∧ fbAfter (.setPixel 0 128 true) start = some [] := by
  refine ⟨Memory.wf_nil, inRange_iff.1 (by decide), inRange_iff.1 (by decide), ?_⟩
  decide +kernel

theorem witness_GetPixelReadsBit :
    Admitted start.cfg [127, 127] ∧ Admitted start.cfg [-1, 32767] ∧
      retAfter (.getPixel 127 127) { start with fb := [(2047, 0x80)] } = some (.bool true) ∧
      retAfter (.getPixel 0 0) { start with fb := [(0, 0x01)] } = some (.bool true) ∧
      retAfter (.getPixel (-1) 0) { start with fb := [(0, 0x01)] } = some (.bool false) ∧
      retAfter (.getPixel 0 128) { start with fb := [(0, 0x01)] } = some (.bool false) := by
  refine ⟨inRange_iff.1 (by decide), inRange_iff.1 (by decide), ?_⟩
  decide +kernel

theorem witness_ClearedPixelsReadFalse :
    (∃ t, exec .clearFrameBuffer start = .next t) ∧ Admitted start.cfg [-32768, 32767] :=
  ⟨⟨_, rfl⟩, inRange_iff.1 (by decide)⟩

theorem witness_PixelReadsBackAfterWrite :
    Inv start ∧ inBounds start.cfg 127 127 = true ∧ (∃ t, exec (.setPixel 127 127 true) start = .next t) ∧
      ((0 : Int), (0 : Int)) ≠ (127, 127) :=
  ⟨test_start_meets_invariant, by decide, ⟨_, rfl⟩, by decide⟩

theorem witness_PixelLayoutIsBijective :
    cfg.legal = true ∧ inBounds cfg 0 0 = true ∧ inBounds cfg 127 127 = true ∧ fbIndex cfg 127 127 = 2047 ∧
      2047 < cfg.fbBytes := by
  decide

theorem witness_PixelWritesCommute :
    ∃ a ab b ba aa, exec (.setPixel 0 0 true) start = .next a ∧ exec (.setPixel 0 1 false) a = .next ab ∧
      exec (.setPixel 0 1 false) start = .next b ∧ exec (.setPixel 0 0 true) b = .next ba ∧
      exec (.setPixel 0 0 true) a = .next aa :=
  ⟨_, _, _, _, _, rfl, rfl, rfl, rfl, rfl⟩

theorem witness_OutOfRangeOperandsRefused :
    refusal? (exec (.setPixel (-32769) 0 true) start) = some .operandRange ∧
    refusal? (exec (.getPixel 0 32768) start) = some .operandRange ∧
    refusal? (exec (.drawLine 0 0 32767 (-32768)) start) = some .operandRange ∧
    refusal? (exec (.drawLine 1 (-1) 1 32767) start) = some .operandRange ∧
    refusal? (exec (.drawRect 32767 0 2 1 true) start) = some .operandRange ∧
    refusal? (exec (.drawCircle 0 0 16384) start) = some .operandRange ∧
    refusal? (exec (.drawBitmap 0 0 8 1 ⟨[0xFF], false⟩ 2 true) start) = some .operandRange ∧
    refusal? (exec (.drawBitmap 0 0 8 1 ⟨[0xFF], false⟩ (-1) true) start) = some .operandRange ∧
    refusal? (exec (.drawBitmap 0 32767 8 2 ⟨[0xFF], false⟩ 1 true) start) = some .operandRange ∧
    refusal? (exec (.drawChar 32764 0 65) start) = some .operandRange ∧
    refusal? (exec (.drawString 32762 0 ⟨[65], false⟩) start) = some .operandRange ∧
    refusal? (exec (.drawStringN 0 0 ⟨[65], false⟩ 32768) start) = some .operandRange ∧
    refusal? (exec (.drawStringN 0 0 ⟨[65], false⟩ (-1)) start) = some .operandRange := by
  decide +kernel

theorem witness_SharedStorageRefused :
    refusal? (exec (.drawBitmap 0 0 8 1 ⟨[0xFF], true⟩ 1 true) start) = some .operandSharesFb ∧
    refusal? (exec (.drawString 0 0 ⟨[], true⟩) start) = some .operandSharesFb ∧
    refusal? (exec (.drawStringN 0 0 ⟨[65], true⟩ 0) start) = some .operandSharesFb := by
  decide +kernel

theorem witness_DrawLineLightsItsPixels :
    Inv start ∧ Admitted start.cfg [-32768, 0, -1, 32767, |(-1) - (-32768)|, |32767 - 0|] :=
  ⟨test_start_meets_invariant, inRange_iff.1 (by decide)⟩

theorem witness_DrawRectLightsRegion :
    Inv start ∧ Admitted start.cfg [-32768, 32767, 1, 1, -32768 + 1 - 1, 32767 + 1 - 1] ∧
      Admitted start.cfg [0, 0, 0, -1, 0 + 0 - 1, 0 + (-1) - 1] :=
  ⟨test_start_meets_invariant, inRange_iff.1 (by decide), inRange_iff.1 (by decide)⟩

theorem witness_RectPixelCount :
    (rectPixels 0 0 1 1 false).length = 1 ∧ (rectPixels 0 0 2 2 false).length = 4 ∧
      (rectPixels 1 1 4 3 false).length = 10 ∧ (rectPixels 0 0 3 1 false).length = 3 := by
  decide

theorem witness_DrawCircleLightsItsPixels :
    Inv start ∧ Admitted start.cfg [0, 0, 16383, 0 + 16383, 0 - 16383, 0 + 16383, 0 - 16383, 2 * 16383 + 1] ∧
      Admitted start.cfg [0, 0, -1, 0 + (-1), 0 - (-1), 0 + (-1), 0 - (-1), 2 * (-1) + 1] :=
  ⟨test_start_meets_invariant, inRange_iff.1 (by decide), inRange_iff.1 (by decide)⟩

theorem witness_CircleIsEightWaySymmetric :
    ((10 : Int) + 1, (10 : Int) + 2) ∈ circlePixels 10 10 2 ∧ circlePixels 10 10 (-1) = [] ∧ 1 * 1 + 2 * (2 - 1) < 2 * 2 ∧ 2 * 2 ≤ 1 * 1 + 2 * (2 + 1) ∧ ((4 : Int), (4 : Int)) ∈ circlePixels 4 4 0 := by
  decide

theorem witness_DrawBitmapBlitsSetBits :
    Inv start ∧ Admitted start.cfg [0, 0, 8, 2, 1, 0 + 8 - 1, 0 + 2 - 1, 2 * ((8 + 7) / 8)] ∧
      (0 : Int) ≤ 1 ∧ (1 : Int) ≤ (⟨[0x81], false⟩ : ByteSeq).data.length ∧
      (∃ t, exec (.drawBitmap 0 0 8 2 ⟨[0x81], false⟩ 1 true) start = .next t ∧ t.draws = 0) ∧
      ∃ t, exec (.drawBitmap 0 0 8 2 ⟨[0x81], false⟩ 1 true) { start with cfg := { cfg with blitGuard := .gt } } = .next t ∧
        t.draws = 1 :=
  ⟨test_start_meets_invariant, inRange_iff.1 (by decide), by decide, by decide, ⟨_, rfl, rfl⟩, _, rfl, rfl⟩

theorem witness_DrawCharLightsGlyphBits :
    Inv start ∧ Admitted start.cfg [0, 0, 0 + start.cfg.glyphW - 1, 0 + start.cfg.glyphH - 1] ∧
      start.cfg.firstChar ≤ (32 : Byte).toNat ∧ (126 : Byte).toNat ≤ start.cfg.lastChar ∧
      (31 : Byte).toNat < start.cfg.firstChar ∧ start.cfg.lastChar < (127 : Byte).toNat :=
  ⟨test_start_meets_invariant, inRange_iff.1 (by decide), by decide, by decide, by decide, by decide⟩

theorem witness_NonPrintableDrawsNothing :
    fbAfter (.drawChar 0 0 31) start = some [] ∧ fbAfter (.drawChar 0 0 255) start = some [] := by
  decide +kernel

theorem witness_GlyphColumnIsBitReversed :
    (∃ t, exec (.drawChar 0 120 0x41) start = .next t) ∧
      start.font[((0x41 : Byte).toNat - start.cfg.firstChar) * start.cfg.glyphW + 4]? = some 0x7E :=
  ⟨⟨_, rfl⟩, by decide +kernel⟩

/-- The hypotheses of the two string statements but for admission: the first `m` characters are drawn. -/
def stringRuns (x : Int) (chars : List Byte) (m : Nat) : Bool :=
  (List.range m).all fun (k : Nat) => decide (k < chars.length ∧ chars.getD k 0 ≠ 0 ∧
    x + k * (start.cfg.glyphW + 1) + start.cfg.glyphW ≤ start.cfg.width)

theorem witness_DrawStringStopsAtTerminatorOrEdge :
    Admitted start.cfg [117, 0, 0 + start.cfg.glyphH - 1, 117 + 3 * (start.cfg.glyphW + 1)] ∧
      (stringRuns 117 [0x41, 0x42, 0x41] 2 = true ∧ (start.cfg.width : Int) < 117 + 2 * (start.cfg.glyphW + 1) + start.cfg.glyphW) ∧
      (stringRuns 0 [0x41, 0, 0x42] 1 = true ∧ ([0x41, 0, 0x42] : List Byte).getD 1 0 = 0) ∧
      stringRuns 0 [0x41, 0x07] 2 = true ∧ (stringRuns 0 [] 0 = true ∧ ([] : List Byte).length = 0) :=
  ⟨inRange_iff.1 (by decide), by decide, by decide, by decide, by decide⟩

theorem witness_DrawStringNStopsAtLimit :
    Admitted start.cfg [0, 0, 2, 0 + start.cfg.glyphH - 1, 0 + 3 * (start.cfg.glyphW + 1)] ∧
      (stringRuns 0 [0x41, 0x42, 0x42] 2 = true ∧ ((2 : Nat) : Int) = 2) ∧
      (stringRuns 0 [0x41] 0 = true ∧ ((0 : Nat) : Int) = 0) ∧
      (stringRuns 0 [0x41, 0] 1 = true ∧ ([0x41, 0] : List Byte).getD 1 0 = 0 ∧ ((1 : Nat) : Int) ≤ 2) ∧
      (stringRuns 123 [0x41, 0x42] 1 = true ∧ (start.cfg.width : Int) < 123 + 1 * (start.cfg.glyphW + 1) + start.cfg.glyphW) :=
  ⟨inRange_iff.1 (by decide), by decide, by decide, by decide, by decide⟩

theorem witness_InitializeSendsWholeSequence :
    (∀ k < 7, ({ start with busAnswers := List.replicate 7 true } : State).answer k = true) ∧
      ∃ k < 7, ({ start with busAnswers := [true, true, true, true, true, true, false] } : State).answer k = false :=
  ⟨by decide, 6, by decide, by decide⟩

theorem witness_InitializeTraceBytes :
    start.cfg.cmds = .withPump pumpOff pumpOn ∧ start.cfg.height = 128 ∧ start.cfg.resetDelayMs = 100 ∧
      start.cfg.hasGpio = true ∧ start.cfg.hasBus = true ∧ start.cfg.hasDelay = true ∧
      ∃ t, exec .initializeDriver start = .next t :=
  ⟨rfl, rfl, rfl, rfl, rfl, rfl, _, rfl⟩

theorem witness_InitializeStreamSpellsSequence :
    pumpReadable pumpOff pumpOn = true ∧ tiny.cfg.cmds = .withPump pumpOff pumpOn ∧ 8 ≤ tiny.cfg.height ∧
      start.cfg.height ≤ 128 ∧ ∃ t, exec .initializeDriver tiny = .next t :=
  ⟨by decide +kernel, rfl, by decide, by decide, _, rfl⟩

theorem witness_DisplaySendsUntilFirstFailure :
    (∀ k < 4 * ((tinyReady []).cfg.height / 8), (tinyReady [true, true, true, true]).answer k = true) ∧
      (∀ k < 3, (tinyReady [true, true, true, false]).answer k = true) ∧
      (tinyReady [true, true, true, false]).answer 3 = false ∧ (tinyReady [false]).answer 0 = false := by
  decide +kernel

theorem witness_DisplayTransmitsFrameBuffer :
    ∃ s t, Inv s ∧ s.cfg.cmds = .withPump pumpOff pumpOn ∧ s.cfg.hasGpio = true ∧ s.cfg.hasBus = true ∧
      exec .display s = .next t ∧ t.ret = .code .ok :=
  ⟨tinyReady [true, true, true, true], _, test_tinyReady_meets_invariant _, rfl, rfl, rfl, rfl, by decide +kernel⟩

theorem witness_NotReadyRefused :
    start.lc ≠ .ready ∧ ({ start with lc := .initializing } : State).lc ≠ .ready ∧
      ({ start with lc := .deinitializing } : State).lc ≠ .ready := by
  decide

theorem witness_SendCommandTransmitsOnce : (ready []).lc = .ready := rfl

theorem witness_AbsentBusNeverFails :
    ({ ready [false] with cfg := { cfg with hasBus := false } } : State).cfg.hasBus = false ∧
      retAfter .display { ready [false] with cfg := { cfg with hasBus := false } } = some (.code .ok) := by
  decide +kernel

theorem witness_TransmitRecordsAnswer :
    (transmit [0xAE] (ready [false])).2 = false ∧
      (transmit [0xAE] { ready [false] with cfg := { cfg with hasBus := false } }).2 = true := by
  decide +kernel

theorem witness_EncoderIsPureAndTotal : (traceAfter (.sendCommand .nop) (ready [true])).map List.length = some 2 := by
  decide +kernel

theorem witness_OnlySequencerEmitsEvents :
    (∃ t, exec (.drawCircle 4 4 3) start = .next t) ∧ family (.drawCircle 4 4 3) ≠ .lifecycle ∧
      family (.drawCircle 4 4 3) ≠ .output :=
  ⟨⟨_, rfl⟩, by decide, by decide⟩

theorem witness_OnlyLifecycleRequestsWriteLc :
    ∃ t, exec .display (tinyReady [false]) = .next t ∧ Instr.display ≠ .initializeDriver ∧
      Instr.display ≠ .deinitializeDriver :=
  ⟨_, rfl, by decide, by decide⟩

theorem witness_InitializedFlagWriters :
    start.initialized = false ∧
      (next? (exec .initializeDriver { start with busAnswers := List.replicate 7 true })).map State.initialized =
        some true ∧
      (ready []).initialized = true ∧
      (next? (exec .deinitializeDriver (ready [true]))).map State.initialized = some false := by
  decide +kernel

theorem witness_ConfigurationNeverWritten : ∃ t, exec .initializeDriver start = .next t := ⟨_, rfl⟩

theorem witness_TraceOnlyGrows : ∃ t, step { start with inbox := [⟨.request, [0x31]⟩] } = .next t := ⟨_, rfl⟩

theorem witness_OnlyDrawingWritesFrameBuffer :
    ∃ t, exec .initializeDriver start = .next t ∧ family .initializeDriver ≠ .drawing :=
  ⟨_, rfl, by decide⟩

theorem witness_DrawingIgnoresLifecycle :
    family (.setPixel 3 9 true) ≠ .lifecycle ∧ family (.setPixel 3 9 true) ≠ .output ∧
      (∃ t, exec (.setPixel 3 9 true) start = .next t) ∧ ∃ r, exec (.setPixel 40000 0 true) start = .refused r :=
  ⟨by decide, by decide, ⟨_, rfl⟩, _, rfl⟩

/-! ## The fetch hook -/

theorem test_withFetchWord_runs : next? (step (State.reset.withFetchWord 8 0x03)) ≠ none := by decide +kernel

theorem test_withFetchWord_two_bytes : (next? (step (State.reset.withFetchWord 16 0xD50F))).map State.ret =
    some (.bytes [0xD5, 0x0F]) := by
  decide +kernel

end Sys2Proof.Tests
end

section
/-! PROOFS. The statements about the state: what a construction leaves, who writes `LC`, and that the configuration and
the font are never written. -/

namespace Sys2Proof.Machine

/-! ## Construction -/

/-- A construction gives a state exactly where the configuration is legal, and which one. -/
theorem construct_next {cfg : Cfg} {font : List Byte} {t : State} :
    construct cfg font = .next t ↔ cfg.legal = true ∧ t = .constructed cfg font := by
  cases h : cfg.legal <;> simp [construct, h, eq_comm]

theorem reference_legal : Cfg.reference.legal = true := rfl

/-- Settles O2: a construction that gives a state gives the constructed one, and the reference configuration is
legal. -/
theorem constructionLeavesZeroUninitialized : Obligations.ConstructionLeavesZeroUninitialized := by
  refine ⟨fun cfg font t h => ?_, construct_next.2 ⟨reference_legal, rfl⟩⟩
  obtain ⟨-, rfl⟩ := construct_next.1 h
  exact ⟨Memory.read_nil, rfl, rfl, rfl, rfl⟩

/-! ## What an instruction that completes did -/

/-- An encoder call hands back its bytes and changes nothing else (40_command_encoder.md R140). -/
theorem exec_encoder_next {i : Instr} {s t : State} (hf : family i = .encoder) (h : exec i s = .next t) :
    ∃ bs, t = s.setRet (.bytes bs) := by
  obtain ⟨c, rfl⟩ := exists_command_of_encoder hf
  rw [exec_ofCommand] at h
  cases h
  exact ⟨_, rfl⟩

theorem family_eq_pixelRead_iff {i : Instr} : family i = .pixelRead ↔ ∃ x y, i = .getPixel x y := by
  cases i <;> simp [family]

/-- By family: it only handed something back, or it drew, or it ran a sequence. -/
theorem exec_next_cases {i : Instr} {s t : State} (h : exec i s = .next t) :
    (family i = .encoder ∨ family i = .pixelRead) ∧ (∃ r, t = s.setRet r) ∨
    family i = .drawing ∧ Drew s t ∨
    (family i = .lifecycle ∨ family i = .output) ∧ Sequenced i s t := by
  cases hf : family i with
  | encoder =>
    obtain ⟨bs, rfl⟩ := exec_encoder_next hf h
    exact .inl ⟨.inl rfl, _, rfl⟩
  | pixelRead =>
    obtain ⟨x, y, rfl⟩ := family_eq_pixelRead_iff.1 hf
    exact .inl ⟨.inr rfl, _, exec_getPixel_next h⟩
  | drawing => exact .inr (.inl ⟨rfl, exec_drawing hf h⟩)
  | lifecycle => exact .inr (.inr ⟨.inl rfl, exec_sequencer (.inl hf) h⟩)
  | output => exact .inr (.inr ⟨.inr rfl, exec_sequencer (.inr hf) h⟩)

/-! ## Who writes `LC` -/

theorem family_eq_lifecycle_iff {i : Instr} :
    family i = .lifecycle ↔ i = .initializeDriver ∨ i = .deinitializeDriver := by
  cases i <;> simp [family]

/-- Outside INITIALIZE and DEINITIALIZE an instruction leaves `LC` (10_state.md R23). -/
theorem exec_next_lc {i : Instr} {s t : State} (hf : family i ≠ .lifecycle) (h : exec i s = .next t) :
    t.lc = s.lc := by
  obtain ⟨-, r, rfl⟩ | ⟨-, hd⟩ | ⟨hl | ho, -⟩ := exec_next_cases h
  · exact State.setRet_lc s r
  · obtain ⟨hlc, -⟩ := hd.frame
    exact hlc
  · exact absurd hl hf
  · exact exec_output_lc ho h

/-- Settles O54: the four values are the constructors, and the lifecycle family is the two requests. -/
theorem onlyLifecycleRequestsWriteLc : Obligations.OnlyLifecycleRequestsWriteLc := by
  refine ⟨fun lc => by cases lc <;> simp, fun i s t h hinit hdeinit => exec_next_lc (fun hf => ?_) h⟩
  exact (family_eq_lifecycle_iff.1 hf).elim hinit hdeinit

/-! ## The configuration and the font -/

/-- Settles O56: the frame of every family keeps both (10_state.md R28, R30). -/
theorem configurationNeverWritten : Obligations.ConfigurationNeverWritten := by
  intro i s t h
  obtain ⟨-, r, rfl⟩ | ⟨-, hd⟩ | ⟨-, hs⟩ := exec_next_cases h
  · exact ⟨State.setRet_cfg s r, State.setRet_font s r⟩
  · obtain ⟨-, hcfg, hfont, -⟩ := hd.frame
    exact ⟨hcfg, hfont⟩
  · obtain ⟨-, hcfg, hfont, -⟩ := hs.frame
    exact ⟨hcfg, hfont⟩

end Sys2Proof.Machine
end

section
/-! PROOFS. The statement about host events: an instruction outside the sequencer emits none, and only a drawing request
writes the framebuffer. -/

namespace Sys2Proof.Machine

/-- Handing something back keeps what a drawing request keeps. -/
theorem frameOfDrawing_setRet (s : State) (r : Ret) : frameOfDrawing s (s.setRet r) :=
  ⟨rfl, rfl, rfl, rfl, rfl, rfl, rfl⟩

theorem frameOfDrawing.trace {s t : State} (h : frameOfDrawing s t) : t.trace = s.trace := by
  obtain ⟨-, -, -, htrace, -⟩ := h
  exact htrace

/-- Outside the sequencer families an instruction only handed something back, or it drew. -/
theorem exec_next_cases_of_not_sequencer {i : Instr} {s t : State} (hl : family i ≠ .lifecycle)
    (ho : family i ≠ .output) (h : exec i s = .next t) :
    (∃ r, t = s.setRet r) ∨ family i = .drawing ∧ Drew s t := by
  obtain ⟨-, hret⟩ | hdrew | ⟨hl' | ho', -⟩ := exec_next_cases h
  · exact .inl hret
  · exact .inr hdrew
  · exact absurd hl' hl
  · exact absurd ho' ho

/-- Settles O53: either only the value handed back changed, which keeps the framebuffer and the count of free values
too, or it drew, and the frame of a drawing request holds the trace (20_memory.md R59). -/
theorem onlySequencerEmitsEvents : Obligations.OnlySequencerEmitsEvents := by
  intro i s t h hl ho
  obtain ⟨r, rfl⟩ | ⟨hf, hdrew⟩ := exec_next_cases_of_not_sequencer hl ho h
  · exact ⟨State.setRet_trace s r, frameOfDrawing_setRet s r, fun _ => ⟨State.setRet_fb s r, State.setRet_draws s r⟩⟩
  · exact ⟨hdrew.frame.trace, hdrew.frame, fun hnot => absurd hf hnot⟩

end Sys2Proof.Machine
end

section
/-! PROOFS. The statement about command bytes: a format gives back the operand it was given, whatever the table, and each
row of the reference table is read as its own command. -/

namespace Sys2Proof

/-! ## The formats, for any table (30_encoding.md R71, R73) -/

theorem fitsField_iff {n v : Nat} : fitsField n v = true ↔ v < 2 ^ n := decide_eq_true_iff

/-- Format C1: a row that reads the field below its fixed bits gives the command back. -/
theorem decodeCommand_encC1 {T : CmdTable} {n v : Nat} {pfx : Byte} {c : Command} (hv : v < 2 ^ n)
    (hrow : oneByteCommand T (pfx ||| BitVec.ofNat 8 v) = some c) (rest : List Byte) :
    decodeCommand T (encC1 n pfx v ++ rest) = .ok (c, rest) := by
  simp only [decodeCommand, encC1, trunc, Nat.mod_eq_of_lt hv, List.singleton_append, hrow]

/-- Format C1S: the same with a one-bit field at bit 3. -/
theorem decodeCommand_encC1S {T : CmdTable} {v : Nat} {pfx : Byte} {c : Command} (hv : v < 2 ^ 1)
    (hrow : oneByteCommand T (pfx ||| BitVec.ofNat 8 v <<< 3) = some c) (rest : List Byte) :
    decodeCommand T (encC1S pfx v ++ rest) = .ok (c, rest) := by
  simp only [decodeCommand, encC1S, trunc, Nat.mod_eq_of_lt hv, List.singleton_append, hrow]

/-- An opcode that is a two-byte row and no one-byte row takes the byte after it as the payload. -/
theorem decodeCommand_payload {T : CmdTable} {op p : Byte} {mk : Byte → Command} (hone : oneByteCommand T op = none)
    (htwo : twoByteCommand T op = some mk) (rest : List Byte) :
    decodeCommand T (op :: p :: rest) = .ok (mk p, rest) := by
  simp [decodeCommand, hone, htwo]

/-- Format C2: the payload is the operand. -/
theorem decodeCommand_encC2 {T : CmdTable} {n v : Nat} {op : Byte} {mk : Nat → Command} (hn : n ≤ 8) (hv : v < 2 ^ n)
    (hone : oneByteCommand T op = none) (htwo : twoByteCommand T op = some fun p => mk p.toNat) (rest : List Byte) :
    decodeCommand T (encC2 n op v ++ rest) = .ok (mk v, rest) := by
  have h8 : v < 2 ^ 8 := hv.trans_le (Nat.pow_le_pow_right (by decide) hn)
  have hp : (BitVec.ofNat 8 (trunc n v)).toNat = v := by
    rw [trunc, Nat.mod_eq_of_lt hv, BitVec.toNat_ofNat, Nat.mod_eq_of_lt h8]
  have := decodeCommand_payload hone htwo (p := BitVec.ofNat 8 (trunc n v)) rest
  rwa [hp] at this

/-- The payload of format C2P holds its fields one above the other. -/
theorem payloadC2P_toNat {vh vl : Nat} (hh : vh < 2 ^ 4) (hl : vl < 2 ^ 4) :
    (BitVec.ofNat 8 (trunc 4 vh) <<< 4 ||| BitVec.ofNat 8 (trunc 4 vl)).toNat = 16 * vh + vl := by
  have hpfx : BitVec.ofNat 8 vh <<< 4 = fixedBits 4 (BitVec.ofNat 4 vh) := by
    rw [fixedBits, BitVec.setWidth_ofNat_of_le_of_lt (by decide) hh]
  rw [trunc, trunc, Nat.mod_eq_of_lt hh, Nat.mod_eq_of_lt hl, hpfx, fixedBits_or_toNat (by decide) _ hl,
    fixedBits_toNat (by decide), BitVec.toNat_ofNat, Nat.mod_eq_of_lt hh]
  omega

/-- Format C2P: the operands are the two halves of the payload. -/
theorem decodeCommand_encC2P {T : CmdTable} {vh vl : Nat} {op : Byte} {mk : Nat → Nat → Command} (hh : vh < 2 ^ 4)
    (hl : vl < 2 ^ 4) (hone : oneByteCommand T op = none)
    (htwo : twoByteCommand T op = some fun p => mk (p.toNat % 16) (p.toNat / 16)) (rest : List Byte) :
    decodeCommand T (encC2P op vh vl ++ rest) = .ok (mk vl vh, rest) := by
  have hlow : (16 * vh + vl) % 16 = vl := by omega
  have hhigh : (16 * vh + vl) / 16 = vh := by omega
  have := decodeCommand_payload hone htwo
    (p := BitVec.ofNat 8 (trunc 4 vh) <<< 4 ||| BitVec.ofNat 8 (trunc 4 vl)) rest
  rwa [payloadC2P_toNat hh hl, hlow, hhigh] at this

/-! ## The charge pump, for any table (30_encoding.md R74, R78) -/

/-- A byte in no row of the command map. -/
def InNoRow (T : CmdTable) (b : Byte) : Prop := oneByteCommand T b = none ∧ twoByteCommand T b = none

theorem decodeCommand_of_inNoRow {T : CmdTable} {b : Byte} (h : InNoRow T b) (rest : List Byte) :
    decodeCommand T (b :: rest) = readChargePump T (b :: rest) := by
  obtain ⟨hone, htwo⟩ := h
  simp [decodeCommand, hone, htwo]

theorem decodeCommand_pumpBytes {T : CmdTable} {p : CpBytes} (h : InNoRow T (p.bytes.headD 0)) (rest : List Byte) :
    decodeCommand T (p.bytes ++ rest) = readChargePump T (p.bytes ++ rest) := by
  cases p with
  | one b => exact decodeCommand_of_inNoRow h rest
  | two b0 b1 => exact decodeCommand_of_inNoRow h (b1 :: rest)

theorem readChargePump_off (T : CmdTable) (rest : List Byte) :
    readChargePump T (T.chargePumpOff.bytes ++ rest) = .ok (.setChargePump 0, rest) := by
  simp [readChargePump]

/-- `CP_BYTES(0)` begins no stream that `CP_BYTES(1)` begins, where neither of the two begins with the other. -/
theorem readChargePump_on {T : CmdTable} (h : ¬ T.chargePumpOff.bytes <+: T.chargePumpOn.bytes)
    (h' : ¬ T.chargePumpOn.bytes <+: T.chargePumpOff.bytes) (rest : List Byte) :
    readChargePump T (T.chargePumpOn.bytes ++ rest) = .ok (.setChargePump 1, rest) := by
  have hoff : ¬ T.chargePumpOff.bytes <+: T.chargePumpOn.bytes ++ rest := fun hpre =>
    (List.prefix_or_prefix_of_prefix hpre (List.prefix_append _ rest)).elim h h'
  simp [readChargePump, hoff]

theorem Machine.pumpReadable_iff {off on : CpBytes} :
    Machine.pumpReadable off on = true ↔
      InNoRow (.withPump off on) (off.bytes.headD 0) ∧ InNoRow (.withPump off on) (on.bytes.headD 0) ∧
        ¬ off.bytes <+: on.bytes ∧ ¬ on.bytes <+: off.bytes := by
  simp [Machine.pumpReadable, InNoRow, and_assoc, ← List.isPrefixOf_iff_prefix]

theorem decodeCommand_chargePump {off on : CpBytes} (h : Machine.pumpReadable off on = true) {e : Nat} (he : e < 2 ^ 1)
    (rest : List Byte) :
    decodeCommand (.withPump off on) (Command.encode (.withPump off on) (.setChargePump e) ++ rest) =
      .ok (.setChargePump e, rest) := by
  obtain ⟨hoff, hon, h01, h10⟩ := Machine.pumpReadable_iff.1 h
  obtain rfl | rfl : e = 0 ∨ e = 1 := by omega
  · exact (decodeCommand_pumpBytes hoff rest).trans (readChargePump_off (.withPump off on) rest)
  · exact (decodeCommand_pumpBytes hon rest).trans (readChargePump_on (T := .withPump off on) h01 h10 rest)

/-! ## The reference table (30_encoding.md R76, R77) -/

/-- Each command is read back from its bytes: its format gives the operands back, and its row is the one read, for a field
at each of its values. -/
theorem decodeCommand_encode {off on : CpBytes} {c : Command} (hwf : c.wellFormed = true)
    (hpump : ∀ e, c = .setChargePump e → Machine.pumpReadable off on = true) (rest : List Byte) :
    decodeCommand (.withPump off on) (c.encode (.withPump off on) ++ rest) = .ok (c, rest) := by
  cases c with
  | setDisplayOnOff v | setMemoryAddressingMode v | setPageAddress v | setColumnAddressLow v | setColumnAddressHigh v
  | setSegmentRemap v | setEntireDisplayOn v | setInverseDisplay v =>
    have hv := fitsField_iff.1 hwf
    exact decodeCommand_encC1 hv (by interval_cases v <;> simp [oneByteCommand, sameHigh, lowField]) rest
  | setComScanDirection v =>
    have hv := fitsField_iff.1 hwf
    exact decodeCommand_encC1S hv (by interval_cases v <;> simp [oneByteCommand, sameHigh]) rest
  | setMultiplexRatio v | setDisplayOffset v | setDisplayStartLine v | setContrast v | setVcomDeselectLevel v =>
    exact decodeCommand_encC2 (by decide) (fitsField_iff.1 hwf) (by simp [oneByteCommand, sameHigh])
      (by simp [twoByteCommand]) rest
  | setDisplayClock low high | setPrechargePeriod low high =>
    obtain ⟨hlow, hhigh⟩ := Bool.and_eq_true_iff.1 hwf
    exact decodeCommand_encC2P (fitsField_iff.1 hhigh) (fitsField_iff.1 hlow) (by simp [oneByteCommand, sameHigh])
      (by simp [twoByteCommand]) rest
  | readModifyWrite | endReadModifyWrite | nop =>
    exact decodeCommand_encC1 (by decide) (by simp [oneByteCommand, sameHigh]) rest
  | setChargePump e => exact decodeCommand_chargePump (hpump e rfl) (fitsField_iff.1 hwf) rest

/-! ## Issues of the command port -/

theorem encode_ofCommand (T : CmdTable) (c : Command) : encode T (Instr.ofCommand c) = ⟨.command, c.encode T⟩ := by
  cases c <;> rfl

theorem wellFormed_ofCommand (c : Command) : (Instr.ofCommand c).wellFormed = c.wellFormed := by
  cases c <;> rfl

theorem decode_command {T : CmdTable} {bs rest : List Byte} {c : Command} (h : decodeCommand T bs = .ok (c, rest)) :
    decode T ⟨.command, bs⟩ = .ok (Instr.ofCommand c, rest) := by
  simp [decode, h]

/-- Settles O12: the issue of an encoder call holds the command's bytes, and those are read back. -/
theorem commandBytesDecodeBack : Obligations.CommandBytesDecodeBack := by
  intro off on c rest hwf hpump
  rw [encode_ofCommand]
  exact decode_command (decodeCommand_encode (wellFormed_ofCommand c ▸ hwf) hpump rest)

end Sys2Proof
end

section
/-! PROOFS. The statement about operands out of range: where the admission of a request fails, its outcome is
OPERAND_RANGE before anything else is looked at. -/

namespace Sys2Proof.Machine

theorem not_admitted_of_outside {cfg : Cfg} {vs : List Int} (h : Outside cfg vs) : ¬ Admitted cfg vs := by
  rw [← inRange_iff, inRange_of_outside h]
  decide

/-- Admission of DRAW_BITMAP in the statements' terms (30_encoding.md R86). -/
theorem bitmapAdmitted_iff {cfg : Cfg} {x y w h size : Int} {bmp : ByteSeq} :
    bitmapAdmitted cfg x y w h bmp size = true ↔
      Admitted cfg [x, y, w, h, size, x + w - 1, y + h - 1, h * ((w + 7) / 8)] ∧
        0 ≤ size ∧ size ≤ bmp.data.length := by
  simp [bitmapAdmitted, inRange_iff, ceil8]

/-- Admission of DRAW_STRING_N in the statements' terms (30_encoding.md R86). -/
theorem stringNAdmitted_iff {cfg : Cfg} {x y n : Int} {str : ByteSeq} :
    stringNAdmitted cfg x y str n = true ↔
      Admitted cfg [x, y, n, y + cfg.glyphH - 1, x + str.data.length * (cfg.glyphW + 1)] ∧ 0 ≤ n := by
  simp [stringNAdmitted, stringAdmitted, inRange_iff, Admitted]
  tauto

/-- A request that is not admitted is refused OPERAND_RANGE, shared storage or not (60_exceptions.md R284). -/
theorem whenAdmitted_of_not {inR sharesFb : Bool} {run : Host.Outcome State Fault Refusal} (h : ¬ inR = true) :
    whenAdmitted inR sharesFb run = .refused .operandRange := by
  rw [Bool.eq_false_iff.2 h, whenAdmitted_outOfRange]

/-- The same where the admission is a list of quantities, one of them outside. -/
theorem whenAdmitted_of_outside {cfg : Cfg} {vs : List Int} {sharesFb : Bool}
    {run : Host.Outcome State Fault Refusal} (h : Outside cfg vs) :
    whenAdmitted (inRange cfg vs) sharesFb run = .refused .operandRange :=
  whenAdmitted_of_not (inRange_iff.not.2 (not_admitted_of_outside h))

/-- Settles O26: seven admissions are lists of quantities; DRAW_BITMAP's asks of the size, DRAW_STRING_N's of the count
as well. -/
theorem outOfRangeOperandsRefused : Obligations.OutOfRangeOperandsRefused := by
  intro s x y u v n w h size color ch b
  refine ⟨whenAdmitted_of_outside, whenAdmitted_of_outside, whenAdmitted_of_outside, whenAdmitted_of_outside,
    whenAdmitted_of_outside, fun hout => whenAdmitted_of_not fun hadm => ?_, whenAdmitted_of_outside,
    whenAdmitted_of_outside, fun hout => whenAdmitted_of_not fun hadm => ?_⟩
  · obtain ⟨hin, hsize, hlen⟩ := bitmapAdmitted_iff.1 hadm
    obtain hout | hneg | hlong := hout
    · exact not_admitted_of_outside hout hin
    · omega
    · omega
  · obtain ⟨hin, hcount⟩ := stringNAdmitted_iff.1 hadm
    obtain hout | hneg := hout
    · exact not_admitted_of_outside hout hin
    · omega

end Sys2Proof.Machine
end

section
/-! PROOFS. The statements about the encoder as a unit and about the requests that do not look at `LC`: the encoder is a
pure function of the command term, only the sequencer writes the trace, and outside the sequencer an instruction does
the same in every lifecycle state. -/

namespace Sys2Proof.Machine

/-! ## The encoder (40_command_encoder.md R140) -/

theorem family_eq_output_iff {i : Instr} : family i = .output ↔ i = .display ∨ ∃ cmd, i = .sendCommand cmd := by
  cases i <;> simp [family]

/-- An instruction that changed the trace is a sequencer request. -/
theorem sequencer_of_trace_ne {i : Instr} {s t : State} (h : exec i s = .next t) (hne : t.trace ≠ s.trace) :
    family i = .lifecycle ∨ family i = .output := by
  by_contra hf
  obtain ⟨hl, ho⟩ := not_or.1 hf
  obtain ⟨htrace, -⟩ := onlySequencerEmitsEvents i s t h hl ho
  exact hne htrace

/-- Settles O18: the bytes are the term's encoding under the table, and the sequencer families are the four requests. -/
theorem encoderIsPureAndTotal : Obligations.EncoderIsPureAndTotal := by
  refine ⟨fun c => ⟨fun T => c.encode T, fun s => ⟨_, exec_ofCommand c s, rfl, ?_⟩⟩, fun i s t h hne => ?_⟩
  · exact ⟨⟨rfl, rfl, rfl, rfl, rfl⟩, rfl, rfl, rfl, rfl, rfl⟩
  · rw [← or_assoc, ← family_eq_lifecycle_iff, ← family_eq_output_iff]
    exact sequencer_of_trace_ne h hne

/-! ## Outcomes with another `LC` -/

/-- The same outcome, its next state in the lifecycle state `lc`. -/
def outcomeAtLc (lc : Lifecycle) : Host.Outcome State Fault Refusal → Host.Outcome State Fault Refusal
  | .next t => .next (t.setLc lc)
  | .fault f => .fault f
  | .refused r => .refused r

/-- Admission does not look at `LC`. -/
theorem outcomeAtLc_whenAdmitted (lc : Lifecycle) (inR sharesFb : Bool) (t : State) :
    outcomeAtLc lc (whenAdmitted inR sharesFb (.next t)) = whenAdmitted inR sharesFb (.next (t.setLc lc)) := by
  cases inR <;> cases sharesFb <;> rfl

/-- Whether a blit takes a free value is the guard's matter alone (42_rasterizer.md R186). -/
theorem afterBlit_setLc (s : State) (lc : Lifecycle) : (s.setLc lc).afterBlit = s.afterBlit.setLc lc := by
  unfold State.afterBlit
  rw [State.setLc_cfg]
  split <;> rfl

/-- A drawing request reads the configuration, the font and `FB`, and for a blit the count of free values. -/
theorem exec_drawing_setLc {i : Instr} (hf : family i = .drawing) (s : State) (lc : Lifecycle) :
    exec i (s.setLc lc) = outcomeAtLc lc (exec i s) := by
  cases i with
  | clearFrameBuffer => rfl
  | setPixel | drawLine | drawRect | drawCircle | drawChar | drawString | drawStringN =>
    exact Eq.symm (outcomeAtLc_whenAdmitted lc _ _ _)
  | drawBitmap x y w h bmp size color =>
    simp only [exec, execDrawBitmap, afterBlit_setLc]
    exact Eq.symm (outcomeAtLc_whenAdmitted lc _ _ _)
  | _ => simp [family] at hf

/-- Outside the sequencer families an instruction does the same whatever `LC` is (92_eei_decisions.md D24). -/
theorem exec_setLc {i : Instr} (hl : family i ≠ .lifecycle) (ho : family i ≠ .output) (s : State) (lc : Lifecycle) :
    exec i (s.setLc lc) = outcomeAtLc lc (exec i s) := by
  cases hf : family i with
  | encoder =>
    obtain ⟨c, rfl⟩ := exists_command_of_encoder hf
    rw [exec_ofCommand, exec_ofCommand]
    rfl
  | pixelRead =>
    obtain ⟨x, y, rfl⟩ := family_eq_pixelRead_iff.1 hf
    exact Eq.symm (outcomeAtLc_whenAdmitted lc _ _ _)
  | drawing => exact exec_drawing_setLc hf s lc
  | lifecycle => exact absurd hf hl
  | output => exact absurd hf ho

/-- Settles O59: a next state and a refusal are the two outcomes the commuting equation is read at. -/
theorem drawingIgnoresLifecycle : Obligations.DrawingIgnoresLifecycle := by
  intro i s lc hl ho
  have heq : exec i { s with lc := lc } = outcomeAtLc lc (exec i s) := exec_setLc hl ho s lc
  exact ⟨fun t h => by rw [heq, h]; rfl, fun r h => by rw [heq, h]; rfl⟩

end Sys2Proof.Machine
end

section
/-! PROOFS. The statement about CLEAR_FRAME_BUFFER: the step empties the list of written bytes, and a byte that is not
listed reads 0. -/

namespace Sys2Proof.Machine

theorem encode_clearFrameBuffer (T : CmdTable) : encode T .clearFrameBuffer = ⟨.request, [0x03]⟩ := rfl

theorem exec_clearFrameBuffer (s : State) : exec .clearFrameBuffer s = .next ((s.setFb []).setRet .none) := rfl

/-- The empty list stands for a framebuffer of zero bytes. -/
theorem Memory.read_nil_eq_zero (a : Nat) : Memory.read [] a = 0 := by
  rw [Memory.read_nil, Memory.unlisted]

/-- Settles O21: the frame is that of every drawing request, the bytes are those of the empty list. -/
theorem clearZeroesFrameBuffer : Obligations.ClearZeroesFrameBuffer := by
  refine ⟨encode_clearFrameBuffer, fun s => ?_⟩
  have hexec := exec_clearFrameBuffer s
  have hdrew : Drew s ((s.setFb []).setRet .none) := exec_drawing rfl hexec
  refine ⟨_, hexec, hdrew.frame, ?_, hdrew.ret, fun a => ?_⟩
  · rw [State.setRet_draws, State.setFb_draws]
  · rw [State.setRet_fb, State.setFb_fb]
    exact Memory.read_nil_eq_zero a

end Sys2Proof.Machine
end

section
/-! PROOFS. The statement about codes outside the printable range: they light no pixel, so drawing one leaves the
framebuffer. -/

namespace Sys2Proof.Machine

theorem printable_iff {cfg : Cfg} {ch : Byte} :
    printable cfg ch = true ↔ cfg.firstChar ≤ ch.toNat ∧ ch.toNat ≤ cfg.lastChar := decide_eq_true_iff

/-- A code outside the printable range lights no pixel (43_glyph_renderer.md R211). -/
theorem glyphPixels_of_not_printable {cfg : Cfg} {ch : Byte} (hp : ¬ printable cfg ch = true) (font : List Byte)
    (x y : Int) : glyphPixels cfg font x y ch = [] := if_neg hp

theorem putGlyph_of_not_printable {cfg : Cfg} {ch : Byte} (hp : ¬ printable cfg ch = true) (font : List Byte)
    (fb : Memory) (x y : Int) : putGlyph cfg font fb x y ch = fb := by
  rw [putGlyph, glyphPixels_of_not_printable hp, putPixels_nil]

/-- A DRAW_CHAR that completes put the glyph (43_glyph_renderer.md R210). -/
theorem exec_drawChar_next {s t : State} {x y : Int} {ch : Byte} (h : exec (.drawChar x y ch) s = .next t) :
    t = (s.setFb (putGlyph s.cfg s.font s.fb x y ch)).setRet .none := by
  obtain ⟨-, -, hrun⟩ := whenAdmitted_next.1 h
  cases hrun
  rfl

/-- Settles O37: the code is not printable, so the glyph put is none, for a string's glyphs as for DRAW_CHAR's. -/
theorem nonPrintableDrawsNothing : Obligations.NonPrintableDrawsNothing := by
  refine fun s x y ch => ⟨printable_iff, fun hout => ?_⟩
  have hp : ¬ printable s.cfg ch = true := by
    rw [printable_iff]
    omega
  have hglyph := putGlyph_of_not_printable hp s.font s.fb x y
  refine ⟨hglyph, fun t h => ?_⟩
  rw [exec_drawChar_next h, hglyph]
  rfl

end Sys2Proof.Machine
end

section
/-! PROOFS. The statement about one transmission: the answer it takes, the event it appends, and that it changes nothing
else. -/

namespace Sys2Proof.Machine

/-- With a bus a transmission takes the next answer and appends the event that carries it (44_sequencer.md R241). -/
theorem transmit_of_bus {s : State} (hbus : s.cfg.hasBus = true) (bytes : List Byte) :
    transmit bytes s = (s.takeAnswer.1.emit (.busTransmit bytes s.takeAnswer.2), s.takeAnswer.2) := by
  rw [transmit, if_pos hbus]

/-- Without a bus a transmission is skipped and counts as a success (44_sequencer.md R243). -/
theorem transmit_of_no_bus {s : State} (hbus : s.cfg.hasBus = false) (bytes : List Byte) :
    transmit bytes s = (s, true) := by
  rw [transmit, hbus, if_neg Bool.false_ne_true]

theorem PortFrame.frameOfSequencer {s t : State} (h : PortFrame s t) : frameOfSequencer s t :=
  ⟨h.fb, h.cfg, h.font, h.refusalMark, h.inbox⟩

/-- Settles O50: with a bus the answer is the one taken, and recording it keeps what taking it kept; without a bus
nothing happens. -/
theorem transmitRecordsAnswer : Obligations.TransmitRecordsAnswer := by
  refine fun bytes s => ⟨fun hbus => ?_, fun hbus => transmit_of_no_bus hbus bytes⟩
  obtain ⟨hok, hanswers, htake, htrace⟩ := takeAnswer_spec s hbus
  have hframe := htake.trans (emit_portFrame s.takeAnswer.1 (.busTransmit bytes s.takeAnswer.2))
  rw [transmit_of_bus hbus]
  refine ⟨hok, ?_, hanswers, hframe.frameOfSequencer, hframe.lc, hframe.ret⟩
  rw [State.emit_trace, htrace, hok]

end Sys2Proof.Machine
end

section
/-! PROOFS. The statement about a successful DISPLAY: every transmission of the flush was made, so the data-framed bytes
are the framebuffer's and the command-framed bytes spell the pages' addresses. -/

namespace Sys2Proof.Machine

/-! ## A flush that succeeds -/

/-- A run of transmissions that stops at the first failure, and reports none, had a success for each (44_sequencer.md
R255, R257). -/
theorem answers_of_sendUntilFailure {fs : List Frame} {s : State} (h : (sendUntilFailure fs s).2 = true) :
    ∀ k < fs.length, s.answer k = true := by
  intro k
  induction k using Nat.strong_induction_on with
  | h k ih =>
    intro hk
    by_contra hfail
    obtain ⟨-, hreport, -⟩ := sendUntilFailure_failure fs s k hk (fun j hj => ih j hj (hj.trans hk))
      (Bool.eq_false_iff.2 hfail)
    exact Bool.false_ne_true (hreport.symm.trans h)

theorem codeOf_eq_ok_iff {ok : Bool} : codeOf ok = .ok ↔ ok = true := by
  cases ok <;> simp [codeOf]

/-- A DISPLAY that answers OK made every transmission of the flush (44_sequencer.md R255). -/
theorem exec_display_ok_trace {s t : State} (h : exec .display s = .next t) (hok : t.ret = .code .ok) :
    t.trace = s.trace ++ transmissionEvents s 0 (framePairs (flushFrames s.cfg s.fb)) := by
  obtain ⟨-, hrun⟩ := whenReady_next.1 h
  cases hrun
  have hsent := codeOf_eq_ok_iff.1 (Ret.code.inj hok)
  obtain ⟨-, -, htrace⟩ := sendUntilFailure_success _ s (answers_of_sendUntilFailure hsent)
  exact htrace

/-! ## The events of a list of frames -/

/-- With both capabilities a framed transmission is two events (44_sequencer.md R240 to R242). -/
theorem transmissionEvents_length {s : State} (hgpio : s.cfg.hasGpio = true) (hbus : s.cfg.hasBus = true)
    (fs : List (Level × List Byte)) (k : Nat) : (transmissionEvents s k fs).length = 2 * fs.length := by
  induction fs generalizing k with
  | nil => rfl
  | cons f fs ih =>
    have hframe : (frameEvents s.cfg f.1 f.2 (s.answer k)).length = 2 := by
      simp [frameEvents, eventPresent, hgpio, hbus]
    rw [transmissionEvents, List.length_append, hframe, ih, List.length_cons]
    omega

/-- With both capabilities the bytes on the bus in one framing are those of the frames with that level, in order. -/
theorem framedBytes_of_frames {s : State} (hgpio : s.cfg.hasGpio = true) (hbus : s.cfg.hasBus = true) (level : Level)
    (fs : List Frame) (k : Nat) :
    framedBytes level (byteStream (transmissionEvents s k (framePairs fs))) =
      (fs.filter fun f => decide (f.level = level)).flatMap Frame.bytes := by
  rw [byteStream, byteStreamFrom_transmissions hgpio hbus, framedBytes_transmissions, framePairs, List.filter_map,
    List.flatMap_map]
  rfl

/-! ## The frames of a flush -/

/-- The commands a flush sends before the bytes of page `p` (44_sequencer.md R255). -/
def pageCommands (p : Nat) : List Command := [.setPageAddress p, .setColumnAddressLow 0, .setColumnAddressHigh 0]

/-- The data frames of a page hold its bytes. -/
theorem pageFrames_data (cfg : Cfg) (fb : Memory) (p : Nat) :
    ((pageFrames cfg fb p).filter fun f => decide (f.level = .high)).flatMap Frame.bytes =
      Memory.bytes fb (p * cfg.width) cfg.width := by
  simp [pageFrames, commandFrame, dataFrame]

/-- The command frames of a page hold its commands. -/
theorem pageFrames_commands (cfg : Cfg) (fb : Memory) (p : Nat) :
    ((pageFrames cfg fb p).filter fun f => decide (f.level = .low)).flatMap Frame.bytes =
      (pageCommands p).flatMap (Command.encode cfg.cmds) := by
  simp [pageFrames, pageCommands, commandFrame, dataFrame]

theorem flushFrames_length (cfg : Cfg) (fb : Memory) : (flushFrames cfg fb).length = 4 * cfg.pages := by
  simp [flushFrames, pageFrames, mul_comm]

theorem fbBytes_of_legal {cfg : Cfg} (h : cfg.legal = true) : cfg.fbBytes = cfg.pages * cfg.width := by
  have hdvd : 8 ∣ cfg.height := Nat.dvd_of_mod_eq_zero (height_of_legal h)
  rw [Cfg.fbBytes, Cfg.pages, Nat.mul_div_assoc _ hdvd, mul_comm]

/-- The data-framed bytes of a flush are the framebuffer's in index order (44_sequencer.md R256). -/
theorem flushFrames_data {cfg : Cfg} (h : cfg.legal = true) (fb : Memory) :
    ((flushFrames cfg fb).filter fun f => decide (f.level = .high)).flatMap Frame.bytes =
      Memory.bytes fb 0 cfg.fbBytes := by
  rw [flushFrames, List.filter_flatMap, List.flatMap_assoc, fbBytes_of_legal h, ← bytes_of_pages]
  simp only [pageFrames_data]

/-- The command-framed bytes of a flush are those of the pages' commands (44_sequencer.md R255). -/
theorem flushFrames_commands (cfg : Cfg) (fb : Memory) :
    ((flushFrames cfg fb).filter fun f => decide (f.level = .low)).flatMap Frame.bytes =
      ((List.range cfg.pages).flatMap pageCommands).flatMap (Command.encode cfg.cmds) := by
  rw [flushFrames, List.filter_flatMap, List.flatMap_assoc, List.flatMap_assoc]
  simp only [pageFrames_commands]

/-! ## Reading the commands back -/

theorem pages_le_of_legal {cfg : Cfg} (h : cfg.legal = true) : cfg.pages ≤ 16 := by
  simp only [Cfg.legal, Bool.and_eq_true, decide_eq_true_eq] at h
  unfold Cfg.pages
  omega

/-- The page fits its field on every legal panel, and the columns are 0. -/
theorem wellFormed_of_mem_pageCommands {p : Nat} (hp : p < 16) {c : Command} (hc : c ∈ pageCommands p) :
    c.wellFormed = true := by
  simp only [pageCommands, List.mem_cons, List.not_mem_nil, or_false] at hc
  obtain rfl | rfl | rfl := hc
  · exact fitsField_iff.2 hp
  · rfl
  · rfl

theorem ne_setChargePump_of_mem_pageCommands {p : Nat} {c : Command} (hc : c ∈ pageCommands p) (e : Nat) :
    c ≠ .setChargePump e := by
  rintro rfl
  simp [pageCommands] at hc

/-- The commands of pages below 16 are read back from their bytes, whatever the charge-pump bytes (30_encoding.md
R78). -/
theorem readCommands_pageCommands (off on : CpBytes) {n : Nat} (hn : n ≤ 16) :
    readCommands (.withPump off on)
        (((List.range n).flatMap pageCommands).flatMap (Command.encode (.withPump off on))) =
      ((List.range n).flatMap pageCommands, .complete) := by
  refine readCommands_encodings fun c hc rest => ?_
  obtain ⟨p, hp, hc⟩ := List.mem_flatMap.1 hc
  have hp : p < 16 := (List.mem_range.1 hp).trans_le hn
  exact decodeCommand_encode (wellFormed_of_mem_pageCommands hp hc)
    (fun e he => absurd he (ne_setChargePump_of_mem_pageCommands hc e)) rest

/-- Settles O46: the events are those of the whole flush, whose data frames hold the framebuffer page by page and whose
command frames hold commands that read back. -/
theorem displayTransmitsFrameBuffer : Obligations.DisplayTransmitsFrameBuffer := by
  intro s t off on hinv hcmds hgpio hbus h hok
  refine ⟨_, exec_display_ok_trace h hok, ?_, ?_, ?_⟩
  · rw [transmissionEvents_length hgpio hbus, framePairs, List.length_map, flushFrames_length]
    omega
  · rw [framedBytes_of_frames hgpio hbus, flushFrames_data hinv.legal]
  · rw [framedBytes_of_frames hgpio hbus, flushFrames_commands, hcmds]
    exact readCommands_pageCommands off on (pages_le_of_legal hinv.legal)

end Sys2Proof.Machine
end

section
/-! PROOFS. The statement about the reset pulse: a level write and a delay each give the same state with their event
appended to the trace, and so does the pulse, which is four of them. -/

namespace Sys2Proof.Machine

/-- A level write appends its event, unless the capability is absent, and is the whole of its effect
(44_sequencer.md R243). -/
theorem gpioWrite_eq (line : Line) (level : Level) (s : State) :
    gpioWrite line level s =
      { s with trace := s.trace ++ [HostEvent.gpioWrite line level].filter (eventPresent s.cfg) } := by
  cases h : s.cfg.hasGpio
  · simp [gpioWrite, eventPresent, h]
  · simp [gpioWrite, eventPresent, h, State.emit]

/-- A delay appends its event, unless the capability is absent, and is the whole of its effect (44_sequencer.md R243,
R244). -/
theorem delay_eq (s : State) :
    delay s = { s with trace := s.trace ++ [HostEvent.delay s.cfg.resetDelayMs].filter (eventPresent s.cfg) } := by
  cases h : s.cfg.hasDelay
  · simp [delay, eventPresent, h]
  · simp [delay, eventPresent, h, State.emit]

/-- The reset pulse appends its events, and keeps every other field, the host's answers included (44_sequencer.md R244;
70_reset_and_hazards.md R312). -/
theorem resetPulse_eq (s : State) : resetPulse s = { s with trace := s.trace ++ pulseEvents s.cfg } := by
  rw [resetPulse, gpioWrite_eq, delay_eq, gpioWrite_eq, delay_eq]
  simp only [pulseEvents, List.append_assoc, ← List.filter_append, List.cons_append,
    List.nil_append]

/-- Settles O51: the pulse only appends its events, and these depend on the configuration, not on `LC`. -/
theorem resetPulseLeavesState : Obligations.ResetPulseLeavesState :=
  fun s lc => resetPulse_eq { s with lc := lc }

end Sys2Proof.Machine
end

section
/-! PROOFS. The statements about steps: what a step that completes did keeps the invariant and only appends to the
trace, a refusal marks the state and ends the run, and where no instruction is run. -/

namespace Sys2Proof.Machine

/-! ## The invariant -/

/-- An event a sequencer request gives is allowed, where none of its frames is empty. -/
theorem eventAllowed_of_eventOf {cfg : Cfg} {fs : List Frame} {e : HostEvent} (h : eventOf cfg fs e)
    (hne : ∀ f ∈ fs, f.bytes ≠ []) : eventAllowed cfg e := by
  obtain ⟨hpresent, hbytes, hms⟩ := h
  cases e with
  | gpioWrite line level => exact hpresent
  | busTransmit bytes ok =>
    obtain ⟨f, hf, rfl⟩ := hbytes bytes ok rfl
    exact ⟨hpresent, hne f hf⟩
  | delay ms => exact ⟨hpresent, hms ms rfl⟩

theorem width_pos_of_legal {cfg : Cfg} (h : cfg.legal = true) : 0 < cfg.width := by
  simp only [Cfg.legal, Bool.and_eq_true, decide_eq_true_eq] at h
  omega

/-- Writing pixels, or emptying `FB`, keeps it canonical and inside its bound (10_state.md R21). -/
theorem Drew.keeps_inv {s t : State} (h : Drew s t) (hinv : Inv s) : Inv t := by
  obtain ⟨hlc, hcfg, hfont, htrace, -⟩ := h.frame
  have hfb : Memory.wf t.fb ∧ ∀ c ∈ t.fb, c.1 < s.cfg.fbBytes := by
    obtain hnil | ⟨color, ps, hps⟩ := h.fb
    · rw [hnil]
      exact ⟨Memory.wf_nil, fun c hc => absurd hc List.not_mem_nil⟩
    · rw [hps]
      exact ⟨putPixels_wf hinv.fbCanonical color ps,
        putPixels_inside (height_of_legal hinv.legal) hinv.fbInside color ps⟩
  obtain ⟨hwf, hinside⟩ := hfb
  exact ⟨hcfg ▸ hinv.legal, by rw [hfont, hcfg, hinv.fontWhole], hwf, by rwa [hcfg], hlc ▸ hinv.lcStable,
    by rw [htrace, hcfg]; exact hinv.eventsAllowed⟩

/-- A sequencer request appends allowed events and ends in a stable lifecycle state (44_sequencer.md R243, R244). -/
theorem Sequenced.keeps_inv {i : Instr} {s t : State} (h : Sequenced i s t) (hinv : Inv s) : Inv t := by
  obtain ⟨hfb, hcfg, hfont, -⟩ := h.frame
  obtain ⟨evs, htrace, hevs⟩ := h.trace
  have hallowed : ∀ e ∈ t.trace, eventAllowed s.cfg e := by
    rw [htrace]
    intro e he
    obtain hold | hnew := List.mem_append.1 he
    · exact hinv.eventsAllowed e hold
    · exact eventAllowed_of_eventOf (hevs e hnew) fun f hf => framesOf_ne_nil (width_pos_of_legal hinv.legal) hf
  exact ⟨hcfg ▸ hinv.legal, by rw [hfont, hcfg, hinv.fontWhole], hfb ▸ hinv.fbCanonical,
    by rw [hfb, hcfg]; exact hinv.fbInside, h.lc.elim id fun hlc => hlc ▸ hinv.lcStable, by rwa [hcfg]⟩

/-- The invariant does not look at what was handed back. -/
theorem Inv.setRet {s : State} (h : Inv s) (r : Ret) : Inv (s.setRet r) :=
  ⟨h.legal, h.fontWhole, h.fbCanonical, h.fbInside, h.lcStable, h.eventsAllowed⟩

/-- The invariant does not look at the issues waiting. -/
theorem Inv.setInbox {s : State} (h : Inv s) (inbox : List Issue) : Inv (s.setInbox inbox) :=
  ⟨h.legal, h.fontWhole, h.fbCanonical, h.fbInside, h.lcStable, h.eventsAllowed⟩

theorem exec_keeps_inv {i : Instr} {s t : State} (hinv : Inv s) (h : exec i s = .next t) : Inv t := by
  obtain ⟨-, r, rfl⟩ | ⟨-, hdrew⟩ | ⟨-, hseq⟩ := exec_next_cases h
  · exact hinv.setRet r
  · exact hdrew.keeps_inv hinv
  · exact hseq.keeps_inv hinv

/-- Settles O4: a step left the state, or ran one instruction with the issue taken away. -/
theorem stepKeepsInvariant : Obligations.StepKeepsInvariant := by
  intro s t hinv h
  obtain ⟨rfl, -⟩ | ⟨iss, rest, i, left, -, -, -, hexec⟩ := step_next h
  · exact hinv
  · exact exec_keeps_inv (hinv.setInbox rest) hexec

/-- Settles O3: the reference configuration is legal, its font has the 475 bytes of 95 glyphs, and `FB` and the trace
are empty. -/
theorem resetMeetsInvariant : Obligations.ResetMeetsInvariant := by
  refine ⟨reference_legal, ?_, Memory.wf_nil, fun c hc => absurd hc List.not_mem_nil, rfl,
    fun e he => absurd he List.not_mem_nil⟩
  show referenceFont.length = 475
  rw [referenceFont, List.length_map, List.length_range]

/-! ## The trace -/

theorem exec_trace_append {i : Instr} {s t : State} (h : exec i s = .next t) : ∃ evs, t.trace = s.trace ++ evs := by
  obtain ⟨-, r, rfl⟩ | ⟨-, hdrew⟩ | ⟨-, hseq⟩ := exec_next_cases h
  · exact ⟨[], by simp⟩
  · exact ⟨[], by rw [hdrew.frame.trace, List.append_nil]⟩
  · obtain ⟨evs, htrace, -⟩ := hseq.trace
    exact ⟨evs, htrace⟩

/-- Settles O57: taking an issue away keeps the trace, and an instruction appends to it. -/
theorem traceOnlyGrows : Obligations.TraceOnlyGrows := by
  intro s t h
  obtain ⟨rfl, -⟩ | ⟨iss, rest, i, left, -, -, -, hexec⟩ := step_next h
  · exact ⟨[], (List.append_nil _).symm⟩
  · exact exec_trace_append (s := s.setInbox rest) hexec

/-! ## One step -/

/-- A marked state has no step (60_exceptions.md R284). -/
theorem step_of_marked {s : State} {r : Refusal} (h : s.refusalMark = some r) : step s = .refused r := by
  simp [step, h]

theorem step_of_inbox_nil {s : State} (hmark : s.refusalMark = none) (h : s.inbox = []) : step s = .next s := by
  simp [step, hmark, h]

/-- With nothing in the way a step runs the next issue. -/
theorem step_of_inbox_cons {s : State} {iss : Issue} {rest : List Issue} (hmark : s.refusalMark = none)
    (hlc : s.lc.stable = true) (h : s.inbox = iss :: rest) : step s = runIssue iss (s.setInbox rest) := by
  simp [step, hmark, hlc, h]

theorem step_of_unstable {s : State} {iss : Issue} {rest : List Issue} (hmark : s.refusalMark = none)
    (hlc : s.lc.stable = false) (h : s.inbox = iss :: rest) : step s = .fault .reentrantRequest := by
  simp [step, hmark, hlc, h]

theorem runIssue_of_decode {s : State} {iss : Issue} {i : Instr} {left : List Byte}
    (h : decode s.cfg.cmds iss = .ok (i, left)) : runIssue iss s = exec i s := by
  simp [runIssue, h]

theorem runIssue_of_error {s : State} {iss : Issue} {e : DecodeError} (h : decode s.cfg.cmds iss = .error e) :
    runIssue iss s = .refused (refusalOf iss.port e) := by
  simp [runIssue, h]

/-- Settles O5: the issue is taken away and the instruction it decodes to is run. -/
theorem stepRunsDecodedInstruction : Obligations.StepRunsDecodedInstruction := by
  intro s iss rest i left hmark hlc hinbox hdecode
  rw [step_of_inbox_cons hmark hlc hinbox, runIssue_of_decode (s := s.setInbox rest) hdecode]
  rfl

/-- Settles O6: the three branches of a step that run nothing. -/
theorem stepWithoutInstruction : Obligations.StepWithoutInstruction := by
  refine ⟨fun s => step_of_inbox_nil, fun s r => step_of_marked, fun s iss rest hmark hinbox hlc => ?_⟩
  have hunstable : s.lc.stable = false := by obtain h | h := hlc <;> rw [h] <;> rfl
  exact step_of_unstable hmark hunstable hinbox

/-! ## A refusal ends the run (60_exceptions.md R284) -/

theorem advance_of_refused {s : State} {r : Refusal} (h : step s = .refused r) : advance s = s.markRefused r := by
  simp [advance, h]

/-- The refusal of a marked state is the one it is marked with. -/
theorem advance_markRefused (s : State) (r : Refusal) : advance (s.markRefused r) = s.markRefused r :=
  advance_of_refused (step_of_marked (State.markRefused_refusalMark s r))

theorem advanceBy_of_fixed {s : State} (h : advance s = s) (n : Nat) : advanceBy n s = s := by
  induction n with
  | zero => rfl
  | succ n ih => rw [advanceBy, h, ih]

/-- Settles O9: the first refusal marks the state, and the marked state is a fixed point of the run. -/
theorem refusalMarksAndEndsRun : Obligations.RefusalMarksAndEndsRun := by
  intro s r h
  rw [advance_of_refused h]
  exact ⟨rfl, advanceBy_of_fixed (advance_markRefused s r)⟩

end Sys2Proof.Machine
end

section
/-! PROOFS. The statements about issues that are read: every request is recovered from its record, an unknown request
and a first byte outside the command map are refused. -/

namespace Sys2Proof

/-! ## Records of requests (30_encoding.md R85) -/

theorem decode_request (T : CmdTable) (bs : List Byte) : decode T ⟨.request, bs⟩ = decodeRequest bs := rfl

/-- A request is an issue of the request port. -/
theorem encode_of_not_encoder (T : CmdTable) {i : Instr} (h : Machine.family i ≠ .encoder) :
    encode T i = ⟨.request, (encode T i).bytes⟩ := by
  cases i with
  | setPixel | getPixel | clearFrameBuffer | drawLine | drawRect | drawCircle | drawBitmap | drawChar | drawString
  | drawStringN | initializeDriver | deinitializeDriver | display | sendCommand => rfl
  | _ => exact absurd rfl h

/-- A record is read back operand by operand, whatever follows it: each reader gives back what its writer put. -/
theorem decodeRequest_encode (T : CmdTable) {i : Instr} (hwf : i.wellFormed = true)
    (hf : Machine.family i ≠ .encoder) (r : List Byte) :
    decodeRequest ((encode T i).bytes ++ r) = .ok (i, r) := by
  cases i with
  | clearFrameBuffer | initializeDriver | deinitializeDriver | display => rfl
  | setPixel | getPixel | drawLine | drawRect | drawCircle | drawChar =>
    simp only [Instr.wellFormed, Bool.and_eq_true] at hwf
    simp [encode, decodeRequest, takeInt_put, takeBool_put, takeByte, hwf, bind, Except.bind, pure, Except.pure]
  | drawBitmap | drawString | drawStringN =>
    simp only [Instr.wellFormed, Bool.and_eq_true] at hwf
    simp [encode, decodeRequest, takeInt_put, takeBool_put, takeByteSeq_put, hwf, bind, Except.bind, pure, Except.pure]
  | sendCommand cmd =>
    have hcmd : takeTerm (putTerm cmd ++ r) = .ok (cmd, r) := takeTerm_put hwf r
    simp [encode, decodeRequest, hcmd, bind, Except.bind, pure, Except.pure]
  | _ => exact absurd rfl hf

/-- Settles O13: a request goes to the request port, and its record with nothing behind it is read back. -/
theorem requestRecordsDecodeBack : Obligations.RequestRecordsDecodeBack := by
  intro T i hwf hf
  rw [encode_of_not_encoder T hf, decode_request]
  simpa using decodeRequest_encode T hwf hf []

/-! ## Issues that spell no instruction (30_encoding.md R79, R87) -/

/-- An identifier outside the table names no request. -/
theorem decodeRequest_unknown {id : Byte} (hid : id.toNat ∉ requestIds) (operands : List Byte) :
    decodeRequest (id :: operands) = .error (.unknownRequest id) := by
  simp only [requestIds, List.mem_cons, List.not_mem_nil, or_false, not_or] at hid
  unfold decodeRequest
  split
  all_goals simp_all

/-- Bytes with another first byte neither begin with a charge-pump sequence nor begin one. -/
theorem not_prefix_of_headD_ne {b : Byte} {p : CpBytes} (h : b ≠ p.bytes.headD 0) (more : List Byte) :
    ¬ p.bytes <+: b :: more ∧ ¬ b :: more <+: p.bytes := by
  cases p <;> simp only [CpBytes.bytes, List.headD_cons] at h <;> simp [CpBytes.bytes, List.cons_prefix_cons, h, h.symm]

/-- A first byte that begins neither charge-pump sequence is no charge-pump command. -/
theorem readChargePump_invalid {T : CmdTable} {b : Byte} (hoff : b ≠ T.chargePumpOff.bytes.headD 0)
    (hon : b ≠ T.chargePumpOn.bytes.headD 0) (more : List Byte) :
    readChargePump T (b :: more) = .error (.invalidCommand b) := by
  simp [readChargePump, not_prefix_of_headD_ne hoff more, not_prefix_of_headD_ne hon more]

/-- The first bytes of the command map under the reference values (30_encoding.md R78), the charge pump's left out. -/
def InCommandMap (b : Byte) : Prop :=
  b.toNat ∈ [0x81, 0xA0, 0xA1, 0xA4, 0xA5, 0xA6, 0xA7, 0xA8, 0xAE, 0xAF, 0xC0, 0xC8, 0xD3, 0xD5, 0xD9, 0xDB, 0xDC,
    0xE0, 0xE3, 0xEE] ∨ b.toNat ≤ 0x17 ∨ (0x20 ≤ b.toNat ∧ b.toNat ≤ 0x21) ∨ (0xB0 ≤ b.toNat ∧ b.toNat ≤ 0xBF)

/-- Outside the map no row's test holds. -/
theorem inNoRow_of_not_inCommandMap {b : Byte} (h : ¬ InCommandMap b) (off on : CpBytes) :
    InNoRow (.withPump off on) b := by
  simp only [InCommandMap, List.mem_cons, List.not_mem_nil, or_false, not_or] at h
  constructor
  · unfold oneByteCommand
    repeat rw [if_neg (by simp [sameHigh, BitVec.toNat_eq]; omega)]
  · unfold twoByteCommand
    repeat rw [if_neg (by simp [BitVec.toNat_eq]; omega)]

theorem decodeCommand_invalid {off on : CpBytes} {b : Byte} (h : ¬ InCommandMap b) (hoff : b ≠ off.bytes.headD 0)
    (hon : b ≠ on.bytes.headD 0) (more : List Byte) :
    decodeCommand (.withPump off on) (b :: more) = .error (.invalidCommand b) :=
  (decodeCommand_of_inNoRow (inNoRow_of_not_inCommandMap h off on) more).trans
    (readChargePump_invalid (T := .withPump off on) hoff hon more)

end Sys2Proof

namespace Sys2Proof.Machine

/-- Settles O7: both issues fail to decode, with the error behind the refusal's name. -/
theorem unknownRequestsRefused : Obligations.UnknownRequestsRefused := by
  intro s rest hmark hlc
  refine ⟨fun id operands hinbox hid => ?_, fun bytes hinbox => ?_⟩
  · have hdecode := decodeRequest_unknown hid operands
    rw [step_of_inbox_cons hmark hlc hinbox,
      runIssue_of_error (iss := ⟨.request, id :: operands⟩) (s := s.setInbox rest) hdecode]
    rfl
  · rw [step_of_inbox_cons hmark hlc hinbox]
    rfl

/-- A reader stops at a first byte that spells no command (30_encoding.md R79). -/
theorem readCommands_invalid {T : CmdTable} {b : Byte} {more : List Byte}
    (h : decodeCommand T (b :: more) = .error (.invalidCommand b)) : readCommands T (b :: more) = ([], .invalid b) := by
  simp [readCommands, readCommandsUpTo, h]

/-- Settles O8: the byte is in no row and begins no charge-pump sequence, so the decoder, the reader and the step find
no command. -/
theorem invalidCommandBytesRefused : Obligations.InvalidCommandBytesRefused := by
  intro s off on b more rest hmark hlc hcmds hinbox hlist hlow hmode hpage hoff hon
  have hmap : ¬ InCommandMap b := fun h => h.elim hlist fun h => h.elim hlow fun h => h.elim hmode hpage
  have hcommand := decodeCommand_invalid hmap hoff hon more
  have hdecode : decode s.cfg.cmds ⟨.command, b :: more⟩ = .error (.invalidCommand b) := by
    simp [decode, hcmds, hcommand]
  refine ⟨hdecode, hcmds ▸ readCommands_invalid hcommand, ?_⟩
  rw [step_of_inbox_cons hmark hlc hinbox, runIssue_of_error (s := s.setInbox rest) hdecode]
  rfl

/-- Settles O11: seven closed words, each evaluated by the decoder. -/
theorem tableWordsDecode : Obligations.TableWordsDecode := by
  unfold Obligations.TableWordsDecode
  decide +kernel

end Sys2Proof.Machine
end

section
/-! PROOFS. The statements about the encoder's bytes: operands are cut to their field, fixed bits and field of a
one-byte command can be told apart, and what each command hands back under the reference values. -/

namespace Sys2Proof

/-! ## Operands are cut (30_encoding.md R72) -/

theorem trunc_trunc (n v : Nat) : trunc n (trunc n v) = trunc n v := Nat.mod_mod v (2 ^ n)

theorem encC1_trunc (n : Nat) (pfx : Byte) (v : Nat) : encC1 n pfx (trunc n v) = encC1 n pfx v := by
  rw [encC1, trunc_trunc, encC1]

theorem encC1S_trunc (pfx : Byte) (v : Nat) : encC1S pfx (trunc 1 v) = encC1S pfx v := by
  rw [encC1S, trunc_trunc, encC1S]

theorem encC2_trunc (n : Nat) (op : Byte) (v : Nat) : encC2 n op (trunc n v) = encC2 n op v := by
  rw [encC2, trunc_trunc, encC2]

theorem encC2P_trunc (op : Byte) (vh vl : Nat) : encC2P op (trunc 4 vh) (trunc 4 vl) = encC2P op vh vl := by
  rw [encC2P, trunc_trunc, trunc_trunc, encC2P]

theorem CmdTable.chargePump_trunc (T : CmdTable) (e : Nat) : T.chargePump (trunc 1 e) = T.chargePump e := by
  rw [chargePump, trunc_trunc, chargePump]

/-- Settles O14: each command is cut by its format. -/
theorem commandsTruncateAndFit : Obligations.CommandsTruncateAndFit :=
  fun T => ⟨Laws.encode_length T, fun v w =>
    ⟨(encC1_trunc 1 T.displayOnOff v).symm, (encC2P_trunc T.displayClock w v).symm,
      (encC2_trunc 7 T.multiplexRatio v).symm, (encC2_trunc 7 T.displayOffset v).symm,
      (encC2_trunc 7 T.startLine v).symm, congrArg CpBytes.bytes (T.chargePump_trunc v).symm,
      (encC1_trunc 1 T.addressingMode v).symm, (encC2_trunc 8 T.contrast v).symm,
      (encC1_trunc 4 T.pageAddress v).symm, (encC1_trunc 4 T.columnLow v).symm,
      (encC1_trunc 3 T.columnHigh v).symm, (encC1_trunc 1 T.segmentRemap v).symm,
      (encC1_trunc 1 T.entireDisplay v).symm, (encC1_trunc 1 T.inverseDisplay v).symm,
      (encC1S_trunc T.comScan v).symm, (encC2P_trunc T.precharge w v).symm,
      (encC2_trunc 8 T.vcomDeselect v).symm⟩⟩

/-! ## Fixed bits and field can be told apart (40_command_encoder.md R143) -/

/-- Format C1 under fixed bits: the field is the operand cut, the rest is the fixed bits. -/
theorem encC1_fixedBits {m n v : Nat} {p : BitVec m} {b : Byte} (h : m + n = 8) (hb : encC1 n (fixedBits n p) v = [b]) :
    b.toNat % 2 ^ n = v % 2 ^ n ∧ b.toNat - v % 2 ^ n = (fixedBits n p).toNat := by
  have hfield : v % 2 ^ n < 2 ^ n := Nat.mod_lt v (by positivity)
  have hbyte : b.toNat = (fixedBits n p).toNat + v % 2 ^ n := by
    rw [← List.singleton_injective hb]
    exact fixedBits_or_toNat h p hfield
  refine ⟨?_, by omega⟩
  rw [hbyte, fixedBits_toNat h, Nat.mul_add_mod_self_right, Nat.mod_eq_of_lt hfield]

/-- Format C1S under fixed bits: the field is bit 3, the bits below it are clear. -/
theorem encC1S_fixedBits {v : Nat} {p : BitVec 4} {b : Byte} (hb : encC1S (fixedBits 4 p) v = [b]) :
    b.toNat / 8 % 2 = v % 2 ∧ b.toNat - v % 2 * 8 = (fixedBits 4 p).toNat := by
  have hshift : BitVec.ofNat 8 (trunc 1 v) <<< 3 = BitVec.ofNat 8 (v % 2 * 8) := by
    obtain h | h := Nat.mod_two_eq_zero_or_one v <;> simp [trunc, h]
  have hbyte : b.toNat = (fixedBits 4 p).toNat + v % 2 * 8 := by
    rw [← List.singleton_injective hb, hshift]
    exact fixedBits_or_toNat (by decide) p (by omega)
  rw [hbyte, fixedBits_toNat (by decide)]
  omega

/-- A format C1 without a field is its byte. -/
theorem encC1_no_field (op : Byte) : encC1 0 op 0 = [op] := by
  simp [encC1, trunc]

/-- Settles O15: a table holds fixed bits alone, so the two formats give them and the field back. -/
theorem oneByteCommandsKeepPrefixAndField : Obligations.OneByteCommandsKeepPrefixAndField :=
  fun _ _ _ => ⟨encC1_fixedBits (n := 1) rfl, encC1_fixedBits (n := 1) rfl, encC1_fixedBits (n := 4) rfl,
    encC1_fixedBits (n := 4) rfl, encC1_fixedBits (n := 3) rfl, encC1_fixedBits (n := 1) rfl,
    encC1_fixedBits (n := 1) rfl, encC1_fixedBits (n := 1) rfl, encC1S_fixedBits, encC1_no_field _, encC1_no_field _,
    encC1_no_field _⟩

end Sys2Proof

namespace Sys2Proof.Machine

/-! ## The bytes handed back (40_command_encoder.md R100 to R128) -/

/-- An encoder call hands back the command's bytes under the table. -/
theorem exec_ofCommand_bytes {s : State} {T : CmdTable} {c : Command} {bs : List Byte} (hcmds : s.cfg.cmds = T)
    (hbs : c.encode T = bs) : exec (Instr.ofCommand c) s = .next { s with ret := .bytes bs } := by
  rw [exec_ofCommand, hcmds, hbs]
  rfl

theorem encode_setChargePump (off on : CpBytes) (e : Nat) :
    Command.encode (.withPump off on) (.setChargePump e) = if e % 2 = 1 then on.bytes else off.bytes := by
  simp only [Command.encode, CmdTable.chargePump, trunc, CmdTable.withPump_chargePumpOn,
    CmdTable.withPump_chargePumpOff, apply_ite CpBytes.bytes]
  rfl

/-- Settles O16: the table's bytes are the reference values, whatever the charge-pump bytes. -/
theorem coreCommandBytes : Obligations.CoreCommandBytes :=
  fun _ off on v w hcmds =>
    ⟨exec_ofCommand_bytes (c := .setDisplayOnOff v) hcmds rfl,
      exec_ofCommand_bytes (c := .setDisplayClock v w) hcmds rfl,
      exec_ofCommand_bytes (c := .setMultiplexRatio v) hcmds rfl,
      exec_ofCommand_bytes (c := .setDisplayOffset v) hcmds rfl,
      exec_ofCommand_bytes (c := .setDisplayStartLine v) hcmds rfl,
      exec_ofCommand_bytes (c := .setChargePump v) hcmds (encode_setChargePump off on v),
      exec_ofCommand_bytes (c := .setMemoryAddressingMode v) hcmds rfl,
      exec_ofCommand_bytes (c := .setContrast v) hcmds rfl,
      exec_ofCommand_bytes (c := .setPageAddress v) hcmds rfl,
      exec_ofCommand_bytes (c := .setColumnAddressLow v) hcmds rfl,
      exec_ofCommand_bytes (c := .setColumnAddressHigh v) hcmds rfl⟩

/-- Settles O17: the same for the extended commands. -/
theorem extendedCommandBytes : Obligations.ExtendedCommandBytes :=
  fun _ _ _ v w hcmds =>
    ⟨exec_ofCommand_bytes (c := .setSegmentRemap v) hcmds rfl,
      exec_ofCommand_bytes (c := .setEntireDisplayOn v) hcmds rfl,
      exec_ofCommand_bytes (c := .setInverseDisplay v) hcmds rfl,
      exec_ofCommand_bytes (c := .setComScanDirection v) hcmds rfl,
      exec_ofCommand_bytes (c := .setPrechargePeriod v w) hcmds rfl,
      exec_ofCommand_bytes (c := .setVcomDeselectLevel v) hcmds rfl,
      exec_ofCommand_bytes (c := .readModifyWrite) hcmds (encC1_no_field _),
      exec_ofCommand_bytes (c := .endReadModifyWrite) hcmds (encC1_no_field _),
      exec_ofCommand_bytes (c := .nop) hcmds (encC1_no_field _)⟩

end Sys2Proof.Machine
end

section
/-! PROOFS. The statements about pixels: where one lives, what SET_PIXEL writes, what GET_PIXEL answers, and how writes
follow each other. -/

namespace Sys2Proof.Machine

/-! ## The two requests -/

theorem exec_setPixel {s : State} {x y : Int} (h : Admitted s.cfg [x, y]) (color : Bool) :
    exec (.setPixel x y color) s = .next ((s.setFb (putPixel s.cfg s.fb x y color)).setRet .none) := by
  simp only [exec, execSetPixel, pixelAdmitted, inRange_of_admitted h, whenAdmitted_run]

theorem exec_getPixel {s : State} {x y : Int} (h : Admitted s.cfg [x, y]) :
    exec (.getPixel x y) s = .next (s.setRet (.bool (pixelAt s.cfg s.fb x y))) := by
  simp only [exec, execGetPixel, pixelAdmitted, inRange_of_admitted h, whenAdmitted_run]

/-- A SET_PIXEL that completes was admitted and put the pixel (41_framebuffer.md R150). -/
theorem exec_setPixel_next {s t : State} {x y : Int} {color : Bool} (h : exec (.setPixel x y color) s = .next t) :
    Admitted s.cfg [x, y] ∧ t = (s.setFb (putPixel s.cfg s.fb x y color)).setRet .none := by
  obtain ⟨hadm, -, hrun⟩ := whenAdmitted_next.1 h
  cases hrun
  exact ⟨inRange_iff.1 hadm, rfl⟩

theorem inBounds_of_not_outside {cfg : Cfg} {x y : Int} (hx : 0 ≤ x) (hxw : x < cfg.width) (hy : 0 ≤ y)
    (hyh : y < cfg.height) : inBounds cfg x y = true := inBounds_iff.2 ⟨⟨hx, hxw⟩, hy, hyh⟩

theorem inBounds_of_outside {cfg : Cfg} {x y : Int}
    (h : x < 0 ∨ (cfg.width : Int) ≤ x ∨ y < 0 ∨ (cfg.height : Int) ≤ y) : inBounds cfg x y = false := by
  rw [Bool.eq_false_iff, ne_eq, inBounds_iff]
  omega

/-- Off the panel a pixel reads false (92_eei_decisions.md D26). -/
theorem pixelAt_outside {cfg : Cfg} {x y : Int} (h : inBounds cfg x y = false) (fb : Memory) :
    pixelAt cfg fb x y = false := by
  rw [pixelAt, h, Bool.false_and]

/-- On the panel a pixel is its bit. -/
theorem pixelAt_inside {cfg : Cfg} {x y : Int} (h : inBounds cfg x y = true) (fb : Memory) :
    pixelAt cfg fb x y = bitAt (Memory.read fb (fbIndex cfg x y)) (fbBit y) := by
  rw [pixelAt, h, Bool.true_and]

/-- Settles O24: index and bit are in range, two pixels in one place are one, and every place has a pixel. -/
theorem pixelLayoutIsBijective : Obligations.PixelLayoutIsBijective :=
  fun _ hlegal => ⟨fun _ y hin => ⟨fbIndex_lt (height_of_legal hlegal) hin, fbBit_lt y⟩,
    fun _ _ _ _ => pixel_eq_of_place, fun _ _ => exists_pixel_at (height_of_legal hlegal)⟩

/-- Settles O19: in bounds the byte of the pixel gets its bit and no other byte is written; off the panel nothing is. -/
theorem setPixelWritesOneBit : Obligations.SetPixelWritesOneBit := by
  intro s x y color hwf hadm
  rw [exec_setPixel hadm]
  refine ⟨fun hx hxw hy hyh => ?_, fun hout => ?_⟩
  · have hin := inBounds_of_not_outside hx hxw hy hyh
    refine ⟨_, rfl, ⟨rfl, rfl, rfl, rfl, rfl, rfl, rfl⟩, rfl, rfl, read_putPixel_same hwf color hin, fun a ha => ?_⟩
    exact read_putPixel_other s.fb color fun _ => ha.symm
  · rw [putPixel_outside s.fb color (inBounds_of_outside hout)]
    rfl

/-- Settles O20: in bounds the answer is the bit, off the panel it is false. -/
theorem getPixelReadsBit : Obligations.GetPixelReadsBit := by
  intro s x y hadm
  rw [exec_getPixel hadm]
  refine ⟨fun hx hxw hy hyh => ?_, fun hout => ?_⟩
  · rw [pixelAt_inside (inBounds_of_not_outside hx hxw hy hyh), bitAt_eq_div]
    rfl
  · rw [pixelAt_outside (inBounds_of_outside hout)]
    rfl

/-- Every pixel of an empty list of written bytes reads false. -/
theorem pixelAt_nil (cfg : Cfg) (x y : Int) : pixelAt cfg [] x y = false := by
  simp [pixelAt, bitAt, Memory.unlisted]

/-- Settles O22: the clear left no byte written. -/
theorem clearedPixelsReadFalse : Obligations.ClearedPixelsReadFalse := by
  intro s t x y h hadm
  rw [exec_clearFrameBuffer] at h
  cases h
  rw [exec_getPixel (s := (s.setFb []).setRet .none) hadm, State.setRet_fb, State.setFb_fb, pixelAt_nil]
  rfl

/-- Settles O23: the pixel written reads as its colour, every other as before. -/
theorem pixelReadsBackAfterWrite : Obligations.PixelReadsBackAfterWrite := by
  intro s t x y color hinv h
  obtain ⟨hadm, rfl⟩ := exec_setPixel_next h
  refine ⟨fun hin => ?_, fun x' y' hne => ?_⟩
  · rw [exec_getPixel (s := (s.setFb (putPixel s.cfg s.fb x y color)).setRet .none) hadm]
    simp only [State.setRet_cfg, State.setFb_cfg, State.setRet_fb, State.setFb_fb,
      pixelAt_putPixel hinv.fbCanonical, hin, and_self, if_true]
    rfl
  · have hother : ¬ (x' = x ∧ y' = y) := fun ⟨hx, hy⟩ => hne (by rw [hx, hy])
    simp only [State.setRet_cfg, State.setFb_cfg, State.setRet_fb, State.setFb_fb,
      pixelAt_putPixel hinv.fbCanonical, hother, and_false, if_false]

/-! ## Writes after each other (41_framebuffer.md R157) -/

/-- Writes of distinct pixels commute: a pixel of either write reads as its colour, whichever was first. -/
theorem putPixel_comm {cfg : Cfg} {fb : Memory} (hh : cfg.height % 8 = 0) (hwf : Memory.wf fb)
    (hfb : ∀ c ∈ fb, c.1 < cfg.fbBytes) {x y x' y' : Int} (hne : (x, y) ≠ (x', y')) (c c' : Bool) :
    putPixel cfg (putPixel cfg fb x y c) x' y' c' = putPixel cfg (putPixel cfg fb x' y' c') x y c := by
  have hwf₁ := putPixel_wf (cfg := cfg) hwf x y c
  have hwf₂ := putPixel_wf (cfg := cfg) hwf x' y' c'
  refine fb_ext_of_pixels hh (putPixel_wf hwf₁ x' y' c') (putPixel_wf hwf₂ x y c)
    (putPixel_inside hh (putPixel_inside hh hfb x y c) x' y' c')
    (putPixel_inside hh (putPixel_inside hh hfb x' y' c') x y c) fun u v => ?_
  have hapart : ¬ ((u = x ∧ v = y) ∧ u = x' ∧ v = y') := fun ⟨⟨hx, hy⟩, hx', hy'⟩ =>
    hne (by rw [← hx, ← hy, ← hx', ← hy'])
  simp only [pixelAt_putPixel hwf₁, pixelAt_putPixel hwf₂, pixelAt_putPixel hwf]
  by_cases h : u = x ∧ v = y
  · have h' : ¬ (u = x' ∧ v = y') := fun h' => hapart ⟨h, h'⟩
    simp only [h', and_false, if_false]
  · simp only [h, and_false, if_false]

/-- A write made twice is the write made once. -/
theorem putPixel_idem {cfg : Cfg} {fb : Memory} (hh : cfg.height % 8 = 0) (hwf : Memory.wf fb)
    (hfb : ∀ c ∈ fb, c.1 < cfg.fbBytes) (x y : Int) (c : Bool) :
    putPixel cfg (putPixel cfg fb x y c) x y c = putPixel cfg fb x y c := by
  have hwf₁ := putPixel_wf (cfg := cfg) hwf x y c
  have hin₁ := putPixel_inside hh hfb x y c
  refine fb_ext_of_pixels hh (putPixel_wf hwf₁ x y c) hwf₁ (putPixel_inside hh hin₁ x y c) hin₁ fun u v => ?_
  rw [pixelAt_putPixel hwf₁, pixelAt_putPixel hwf]
  split <;> rfl

/-- Settles O25: both orders put the same two pixels, and only `FB` can differ. -/
theorem pixelWritesCommute : Obligations.PixelWritesCommute := by
  intro s a ab b ba aa x y x' y' c c' hinv ha hab hb hba haa
  have hh := height_of_legal hinv.legal
  obtain ⟨-, rfl⟩ := exec_setPixel_next ha
  obtain ⟨-, rfl⟩ := exec_setPixel_next hab
  obtain ⟨-, rfl⟩ := exec_setPixel_next hb
  obtain ⟨-, rfl⟩ := exec_setPixel_next hba
  obtain ⟨-, rfl⟩ := exec_setPixel_next haa
  refine ⟨fun hne => ?_, ?_⟩
  · exact congrArg (fun fb => (s.setFb fb).setRet .none) (putPixel_comm hh hinv.fbCanonical hinv.fbInside hne c c')
  · exact congrArg (fun fb => (s.setFb fb).setRet .none) (putPixel_idem hh hinv.fbCanonical hinv.fbInside x y c)

end Sys2Proof.Machine
end

section
/-! PROOFS. The statements about shapes, bitmaps and glyphs: an admitted request puts its pixels, which lights the ones
in bounds and keeps every other byte. -/

namespace Sys2Proof.Machine

/-! ## Admitted requests -/

theorem whenAdmitted_of_admitted {cfg : Cfg} {vs : List Int} (h : Admitted cfg vs)
    (run : Host.Outcome State Fault Refusal) : whenAdmitted (inRange cfg vs) false run = run := by
  rw [inRange_of_admitted h, whenAdmitted_run]

/-- An admitted request whose operand shares storage with `FB` is refused ALIAS (20_memory.md R64). -/
theorem whenAdmitted_of_shared {inR sharesFb : Bool} (hin : inR = true) (hshared : sharesFb = true)
    (run : Host.Outcome State Fault Refusal) : whenAdmitted inR sharesFb run = .refused .operandSharesFb := by
  rw [hin, hshared, whenAdmitted_shared]

/-- Settles O27: each request is admitted, so the mark decides. -/
theorem sharedStorageRefused : Obligations.SharedStorageRefused := by
  intro s x y w h size n color b hshared
  refine ⟨fun hadm hsize hlen => ?_, fun hadm => ⟨?_, fun hn hcount => ?_⟩⟩
  · exact whenAdmitted_of_shared (bitmapAdmitted_iff.2 ⟨hadm, hsize, hlen⟩) hshared _
  · exact whenAdmitted_of_shared (inRange_of_admitted hadm) hshared _
  · have hstring : stringAdmitted s.cfg x y b = true := inRange_of_admitted hadm
    refine whenAdmitted_of_shared ?_ hshared _
    simp [stringNAdmitted, hstring, inRange_of_admitted hn, hcount]

/-! ## Lighting pixels -/

/-- What a request that lights the pixels `ps` does: in bounds they are lit, and nothing else changes. -/
structure Lights (s t : State) (ps : List Pixel) : Prop where
  frame : frameOfDrawing s t
  draws : t.draws = s.draws
  ret : t.ret = .none
  lit : ∀ x y, pixelAt t.cfg t.fb x y = true ↔
    pixelAt s.cfg s.fb x y = true ∨ inBounds s.cfg x y = true ∧ (x, y) ∈ ps
  kept : bytesOutsideKept s t ps

theorem lights_putPixels {s : State} (hwf : Memory.wf s.fb) (ps : List Pixel) :
    Lights s ((s.setFb (putPixels s.cfg true s.fb ps)).setRet .none) ps :=
  ⟨⟨rfl, rfl, rfl, rfl, rfl, rfl, rfl⟩, rfl, rfl, lit_putPixels hwf ps, fun _ => read_putPixels_other s.fb true ps⟩

/-- Settles O28: an admitted DRAW_LINE lights the line's pixels. -/
theorem drawLineLightsItsPixels : Obligations.DrawLineLightsItsPixels := by
  intro s x0 y0 x1 y1 hinv hadm
  have h := lights_putPixels hinv.fbCanonical (linePixels x0 y0 x1 y1)
  exact ⟨_, whenAdmitted_of_admitted hadm _, h.frame, h.draws, h.ret, h.lit, h.kept⟩

/-- Settles O33: an admitted DRAW_CIRCLE lights the circle's pixels. -/
theorem drawCircleLightsItsPixels : Obligations.DrawCircleLightsItsPixels := by
  intro s x0 y0 r hinv hadm
  have h := lights_putPixels hinv.fbCanonical (circlePixels x0 y0 r)
  exact ⟨_, whenAdmitted_of_admitted hadm _, h.frame, h.draws, h.ret, h.lit, h.kept⟩

/-- Settles O31: an admitted DRAW_RECT lights the rectangle's pixels, which are the region's or its edges'. -/
theorem drawRectLightsRegion : Obligations.DrawRectLightsRegion := by
  intro s x y w h filled hinv hadm
  have hlights := lights_putPixels hinv.fbCanonical (rectPixels x y w h filled)
  refine ⟨_, whenAdmitted_of_admitted hadm _, hlights.frame, hlights.draws, hlights.ret, fun px py => ?_, hlights.kept⟩
  rw [hlights.lit, mem_rectPixels]

/-! ## Glyphs (43_glyph_renderer.md R210 to R214) -/

theorem exec_drawChar {s : State} {x y : Int} (h : Admitted s.cfg [x, y, x + s.cfg.glyphW - 1, y + s.cfg.glyphH - 1])
    (ch : Byte) : exec (.drawChar x y ch) s = .next ((s.setFb (putGlyph s.cfg s.font s.fb x y ch)).setRet .none) :=
  whenAdmitted_of_admitted h _

/-- Under a whole font the pixels of a printable code are the set bits of its listed bytes. -/
theorem mem_glyphPixels_of_whole {s : State} (hinv : Inv s) {ch : Byte} (hfirst : s.cfg.firstChar ≤ ch.toNat)
    (hlast : ch.toNat ≤ s.cfg.lastChar) {x y px py : Int} :
    (px, py) ∈ glyphPixels s.cfg s.font x y ch ↔
      ∃ c r : Nat, c < s.cfg.glyphW ∧ r < s.cfg.glyphH ∧ px = x + c ∧ py = y + r ∧
        ∃ v, s.font[(ch.toNat - s.cfg.firstChar) * s.cfg.glyphW + c]? = some v ∧ v.toNat / 2 ^ (7 - r) % 2 = 1 := by
  rw [mem_glyphPixels (printable_iff.2 ⟨hfirst, hlast⟩)]
  refine exists_congr fun c => exists_congr fun r => and_congr_right fun hc => ?_
  simp [fontByte_of_whole hinv hfirst hlast hc, msbBit, bitAt_eq_div]

/-- Settles O36: a printable code lights its glyph's pixels, any other has none. -/
theorem drawCharLightsGlyphBits : Obligations.DrawCharLightsGlyphBits := by
  intro s x y ch hinv hadm
  rw [exec_drawChar hadm]
  refine ⟨fun hfirst hlast => ?_, fun hout => ?_⟩
  · have hlights := lights_putPixels hinv.fbCanonical (glyphPixels s.cfg s.font x y ch)
    refine ⟨_, rfl, hlights.frame, hlights.draws, hlights.ret, fun px py => ?_, hlights.kept⟩
    rw [← mem_glyphPixels_of_whole hinv hfirst hlast]
    exact hlights.lit px py
  · have hp : ¬ printable s.cfg ch = true := by
      rw [printable_iff]
      omega
    rw [putGlyph_of_not_printable hp]
    rfl

/-- On a page boundary bit `b` of the page's byte is the pixel `b` rows down. -/
theorem pixelAt_on_page {cfg : Cfg} (hh : cfg.height % 8 = 0) (fb : Memory) {x y : Int} (hpage : y % 8 = 0) (hy : 0 ≤ y)
    (hyh : y < cfg.height) (hx : 0 ≤ x) (hxw : x < cfg.width) {b : Nat} (hb : b < 8) :
    inBounds cfg x (y + b) = true ∧
      pixelAt cfg fb x (y + b) = (Memory.read fb (y / 8 * cfg.width + x).toNat).getLsbD b := by
  have hin : inBounds cfg x (y + b) = true := inBounds_iff.2 ⟨⟨hx, hxw⟩, by omega, by omega⟩
  have hindex : (y + b) / 8 = y / 8 := by omega
  have hbit : fbBit (y + b) = b := by unfold fbBit; omega
  rw [pixelAt_inside hin, fbIndex, hindex, hbit]
  exact ⟨hin, rfl⟩

/-- The pixel `b` rows down in column `c` of a glyph is bit `7 - b` of the column's byte. -/
theorem mem_glyphPixels_column {s : State} (hinv : Inv s) {ch : Byte} (hfirst : s.cfg.firstChar ≤ ch.toNat)
    (hlast : ch.toNat ≤ s.cfg.lastChar) {c : Nat} (hc : c < s.cfg.glyphW) {v : Byte}
    (hv : s.font[(ch.toNat - s.cfg.firstChar) * s.cfg.glyphW + c]? = some v) (x y : Int) (b : Nat) :
    (x + (c : Int), y + (b : Int)) ∈ glyphPixels s.cfg s.font x y ch ↔
      b < s.cfg.glyphH ∧ v.getLsbD (7 - b) = true := by
  obtain rfl := Option.some.inj ((fontByte_of_whole hinv hfirst hlast hc).symm.trans hv)
  rw [mem_glyphPixels (printable_iff.2 ⟨hfirst, hlast⟩)]
  constructor
  · rintro ⟨c', r, -, hr, hxc, hyr, hbit⟩
    obtain rfl : c = c' := by omega
    obtain rfl : b = r := by omega
    exact ⟨hr, hbit⟩
  · rintro ⟨hr, hbit⟩
    exact ⟨c, b, hc, hr, rfl, rfl, hbit⟩

/-- Settles O38: the bit is the pixel `b` rows down, which the glyph lights exactly where its byte's bit `7 - b` is
set. -/
theorem glyphColumnIsBitReversed : Obligations.GlyphColumnIsBitReversed := by
  intro s t x y ch c v hinv h hpage hy hyh hfirst hlast hc hx hxw hv b hb
  obtain rfl := exec_drawChar_next h
  have hpixel := fun fb => pixelAt_on_page (height_of_legal hinv.legal) fb hpage hy hyh hx hxw hb
  obtain ⟨hin, hold⟩ := hpixel s.fb
  have hlit := lit_putPixels (cfg := s.cfg) hinv.fbCanonical (glyphPixels s.cfg s.font x y ch) (x + c) (y + b)
  rw [(hpixel _).2, hold, mem_glyphPixels_column hinv hfirst hlast hc hv] at hlit
  rw [Bool.eq_iff_iff]
  simpa [hin, putGlyph] using hlit

/-! ## Bitmaps (42_rasterizer.md R185 to R188) -/

theorem frameOfDrawing.cfg {s t : State} (h : frameOfDrawing s t) : t.cfg = s.cfg := by
  obtain ⟨-, hcfg, -⟩ := h
  exact hcfg

/-- A blit takes a free value under the guard GT alone, and keeps everything else (42_rasterizer.md R186). -/
theorem afterBlit_spec (s : State) :
    frameOfDrawing s s.afterBlit ∧
      s.afterBlit.draws = (match s.cfg.blitGuard with
        | .ge => s.draws
        | .gt => s.draws + 1) := by
  unfold State.afterBlit
  split <;> exact ⟨⟨rfl, rfl, rfl, rfl, rfl, rfl, rfl⟩, by simp [*]⟩

theorem pastGuard_eq_false_iff {g : BlitGuard} {size idx : Int} :
    pastGuard g size idx = false ↔ idx < size ∨ idx = size ∧ g = .gt := by
  cases g with
  | ge => simp [pastGuard]
  | gt =>
    simp [pastGuard]
    omega

/-- Below `size` the byte read is the operand's (42_rasterizer.md R186). -/
theorem byteAt_eq {bmp : List Byte} {size idx : Int} (hlen : size ≤ bmp.length) (hidx : 0 ≤ idx) (overrun : Byte) :
    byteAt bmp size overrun idx = if idx < size then bmp.getD idx.toNat 0 else overrun := by
  unfold byteAt
  split
  · have : idx.toNat < bmp.length := by omega
    simp [List.getD_eq_getElem?_getD, this]
  · rfl

/-- The index of a source byte inside the bitmap is no negative one. -/
theorem bitmapIndex_nonneg {w i j : Int} (hi : 0 ≤ i) (hw : i < w) (hj : 0 ≤ j) : 0 ≤ j * ceil8 w + i / 8 := by
  have hceil : 0 ≤ ceil8 w := by unfold ceil8; omega
  have := mul_nonneg hj hceil
  omega

/-- Which pixels a blit writes, in the statement's terms. -/
theorem mem_bitmapPixels_iff {g : BlitGuard} {x y w h size : Int} {bmp : List Byte} (hlen : size ≤ bmp.length)
    {overrun : Byte} {i j : Int} :
    (x + i, y + j) ∈ bitmapPixels g x y w h bmp size overrun ↔ 0 ≤ i ∧ i < w ∧ 0 ≤ j ∧ j < h ∧
      (j * ((w + 7) / 8) + i / 8 < size ∨ j * ((w + 7) / 8) + i / 8 = size ∧ g = .gt) ∧
      (if j * ((w + 7) / 8) + i / 8 < size then bmp.getD (j * ((w + 7) / 8) + i / 8).toNat 0 else overrun).toNat /
        2 ^ (7 - (i % 8).toNat) % 2 = 1 := by
  rw [mem_bitmapPixels, pastGuard_eq_false_iff]
  refine and_congr_right fun hi => and_congr_right fun hw => and_congr_right fun hj => ?_
  rw [byteAt_eq hlen (bitmapIndex_nonneg hi hw hj), msbBit, bitAt_eq_div, decide_eq_true_iff]
  rfl

/-- Every pixel a blit writes lies in its rectangle. -/
theorem bitmapPixels_inside {g : BlitGuard} {x y w h size : Int} {bmp : List Byte} {overrun : Byte} {p : Pixel}
    (hp : p ∈ bitmapPixels g x y w h bmp size overrun) : x ≤ p.1 ∧ p.1 < x + w ∧ y ≤ p.2 ∧ p.2 < y + h := by
  have hshift : p = (x + (p.1 - x), y + (p.2 - y)) := by ext <;> simp
  rw [hshift, mem_bitmapPixels] at hp
  omega

theorem exec_drawBitmap {s : State} {x y w h size : Int} {bmp : ByteSeq}
    (hadm : Admitted s.cfg [x, y, w, h, size, x + w - 1, y + h - 1, h * ((w + 7) / 8)]) (hsize : 0 ≤ size)
    (hlen : size ≤ bmp.data.length) (hshared : bmp.sharesFb = false) (color : Bool) :
    exec (.drawBitmap x y w h bmp size color) s = .next ((s.afterBlit.setFb (putPixels s.cfg color s.fb
      (bitmapPixels s.cfg.blitGuard x y w h bmp.data size (Config.overrunByte s.draws)))).setRet .none) := by
  simp only [exec, execDrawBitmap, bitmapAdmitted_iff.2 ⟨hadm, hsize, hlen⟩, hshared, whenAdmitted_run]

/-- Settles O35: the blit's pixels take the colour, whatever they were, and all lie in the rectangle. -/
theorem drawBitmapBlitsSetBits : Obligations.DrawBitmapBlitsSetBits := by
  intro s x y w h size bmp color hinv hadm hsize hlen hshared
  obtain ⟨hframe, hdraws⟩ := afterBlit_spec s
  have hcfg := hframe.cfg
  refine ⟨_, exec_drawBitmap hadm hsize hlen hshared color, hframe, rfl, hdraws, fun i j => ?_, fun a ha => ?_⟩
  · simp only [State.setRet_cfg, State.setFb_cfg, State.setRet_fb, State.setFb_fb, hcfg,
      pixelAt_putPixels hinv.fbCanonical, mem_bitmapPixels_iff hlen]
  · refine read_putPixels_other s.fb color _ fun p hp hin => ?_
    obtain ⟨hx, hxw, hy, hyh⟩ := bitmapPixels_inside hp
    exact ha p.1 p.2 hx hxw hy hyh hin

end Sys2Proof.Machine
end

section
/-! PROOFS. The statements about which pixels a shape has: a rectangle's are counted, a circle's are those the midpoint
rule gives, a line visits the discrete line once and is the same from either end. -/

namespace Sys2Proof.Machine

/-! ## Rectangle (42_rasterizer.md R176) -/

/-- A row visits each of its columns once. -/
theorem rectRow_nodup (x y w h : Int) (filled : Bool) (j : Nat) : (rectRow x y w h filled j).Nodup := by
  refine (List.Nodup.filter _ List.nodup_range).map fun a b hab => ?_
  have hcol := congrArg Prod.fst hab
  simp only at hcol
  omega

theorem snd_of_mem_rectRow {x y w h : Int} {filled : Bool} {j : Nat} {p : Pixel} (hp : p ∈ rectRow x y w h filled j) :
    p.2 = y + j := by
  obtain ⟨i, -, rfl⟩ := List.mem_map.1 hp
  rfl

/-- Rows differ in their second coordinate, so no pixel is in two. -/
theorem rectPixels_nodup (x y w h : Int) (filled : Bool) : (rectPixels x y w h filled).Nodup := by
  refine List.nodup_flatMap.2
    ⟨fun j _ => rectRow_nodup x y w h filled j, List.nodup_range.imp fun {a b} hab p ha hb => ?_⟩
  have ha := snd_of_mem_rectRow ha
  have hb := snd_of_mem_rectRow hb
  omega

theorem rectPixels_length (x y w h : Int) (filled : Bool) :
    (rectPixels x y w h filled).length =
      ((List.range h.toNat).map fun j => (rectRow x y w h filled j).length).sum := List.length_flatMap

theorem rectRow_filled_length (x y w h : Int) (j : Nat) : (rectRow x y w h true j).length = w.toNat := by
  simp [rectRow, rectDraws]

theorem rectPixels_filled_length {x y w h : Int} (hw : 0 < w) (hh : 0 < h) :
    ((rectPixels x y w h true).length : Int) = w * h := by
  simp [rectPixels_length, rectRow_filled_length, hw.le, hh.le, mul_comm]

/-- The two end rows of an outline are whole, each row between has its two ends. -/
theorem rectPixels_outline_length {x y w h : Int} (hw : 1 < w) (hh : 1 < h) :
    ((rectPixels x y w h false).length : Int) = 2 * w + 2 * h - 4 := by
  obtain ⟨k, rfl⟩ : ∃ k : Nat, h = k + 2 := ⟨(h - 2).toNat, by omega⟩
  have hrows : ((k : Int) + 2).toNat = k + 1 + 1 := by omega
  have hmiddle : ((List.range k).map fun j => (rectRow x y w (k + 2) false (j + 1)).length).sum = 2 * k := by
    rw [List.map_congr_left (g := fun _ => 2) fun j hj => ?_]
    · simp [mul_comm]
    · have hj := List.mem_range.1 hj
      rw [rectRow_length hw, if_neg (by omega)]
  rw [rectPixels_length, hrows, List.sum_range_succ', List.sum_range_succ, hmiddle, rectRow_length hw,
    rectRow_length hw, if_pos (by omega), if_pos (by omega)]
  omega

/-- Every pixel of a rectangle one pixel thin is on an edge (92_eei_decisions.md D32). -/
theorem rectPixels_thin {x y w h : Int} (hthin : w = 1 ∨ h = 1) :
    rectPixels x y w h false = rectPixels x y w h true := by
  refine List.flatMap_congr fun j hj => congrArg (List.map _) (List.filter_congr fun i hi => ?_)
  have hj := List.mem_range.1 hj
  have hi := List.mem_range.1 hi
  simp only [rectDraws, Bool.false_or, Bool.true_or, decide_eq_true_eq]
  omega

/-- Settles O32: a filled rectangle is whole rows, an outline two whole rows and the ends of the others, and a thin
outline is filled. -/
theorem rectPixelCount : Obligations.RectPixelCount := by
  intro x y w h hw hh
  refine ⟨rectPixels_nodup x y w h false, rectPixels_nodup x y w h true, rectPixels_filled_length hw hh,
    rectPixels_outline_length, fun hthin => ?_⟩
  rw [rectPixels_thin hthin, rectPixels_filled_length hw hh]

/-! ## Circle (42_rasterizer.md R180 to R182) -/

theorem circlePixels_of_neg {r : Int} (hr : r < 0) (x0 y0 : Int) : circlePixels x0 y0 r = [] := if_pos hr

/-- A circle of radius 0 is its centre, eight times. -/
theorem mem_circlePixels_zero {x0 y0 : Int} {p : Pixel} : p ∈ circlePixels x0 y0 0 ↔ p = (x0, y0) := by
  simp [circlePixels, plot8, circleLoop]

/-- The eight pixels of `plot8` by their offsets from the centre. -/
theorem mem_plot8_iff_abs {x0 y0 a b dx dy : Int} (ha : 0 ≤ a) (hb : 0 ≤ b) :
    (x0 + dx, y0 + dy) ∈ plot8 x0 y0 a b ↔ |dx| = a ∧ |dy| = b ∨ |dx| = b ∧ |dy| = a := by
  rw [mem_plot8, add_sub_cancel_left, add_sub_cancel_left, abs_eq ha, abs_eq hb, abs_eq ha, abs_eq hb]

/-- The circle of a positive radius by offsets: the longer part meets the midpoint rule for the shorter. -/
theorem mem_circlePixels_iff_midpointRule {x0 y0 r dx dy : Int} (hr : 0 < r) :
    (x0 + dx, y0 + dy) ∈ circlePixels x0 y0 r ↔ MidpointRule r (min |dx| |dy|) (max |dx| |dy|) := by
  rw [mem_circlePixels hr]
  constructor
  · rintro ⟨a, b, ha, hab, hrule, hp⟩
    have hparts : min |dx| |dy| = a ∧ max |dx| |dy| = b := by
      rw [mem_plot8_iff_abs ha (ha.trans hab)] at hp
      omega
    obtain ⟨rfl, rfl⟩ := hparts
    exact hrule
  · intro hrule
    have hmin : 0 ≤ min |dx| |dy| := le_min (abs_nonneg dx) (abs_nonneg dy)
    refine ⟨_, _, hmin, min_le_max, hrule, (mem_plot8_iff_abs hmin (hmin.trans min_le_max)).2 ?_⟩
    omega

/-- Whether an offset is on the circle depends on its shorter and its longer part alone. -/
theorem mem_circlePixels_congr {x0 y0 r dx dy dx' dy' : Int} (hmin : min |dx'| |dy'| = min |dx| |dy|)
    (hmax : max |dx'| |dy'| = max |dx| |dy|) (h : (x0 + dx, y0 + dy) ∈ circlePixels x0 y0 r) :
    (x0 + dx', y0 + dy') ∈ circlePixels x0 y0 r := by
  obtain hr | rfl | hr := lt_trichotomy r 0
  · rw [circlePixels_of_neg hr] at h
    exact absurd h List.not_mem_nil
  · obtain ⟨hdx, hdy⟩ := Prod.mk.inj (mem_circlePixels_zero.1 h)
    obtain rfl : dx = 0 := by omega
    obtain rfl : dy = 0 := by omega
    rw [abs_zero, max_self] at hmax
    have hdx' : dx' = 0 := abs_nonpos_iff.1 (hmax ▸ le_max_left _ _)
    have hdy' : dy' = 0 := abs_nonpos_iff.1 (hmax ▸ le_max_right _ _)
    rwa [hdx', hdy']
  · rwa [mem_circlePixels_iff_midpointRule hr, hmin, hmax, ← mem_circlePixels_iff_midpointRule hr]

/-- The longer part of an offset on the circle is at most the radius. -/
theorem le_radius_of_midpointRule {r a b : Int} (hr : 0 < r) (h : MidpointRule r a b) : b ≤ r := by
  obtain ⟨hinside, -⟩ := h
  by_contra hgt
  have hb : r + 1 ≤ b := by omega
  nlinarith [mul_self_nonneg a, mul_le_mul hb (show r ≤ b - 1 by omega) hr.le (by omega)]

theorem abs_le_of_mem_circlePixels {x0 y0 r : Int} {p : Pixel} (hp : p ∈ circlePixels x0 y0 r) :
    |p.1 - x0| ≤ r ∧ |p.2 - y0| ≤ r := by
  obtain hr | rfl | hr := lt_trichotomy r 0
  · rw [circlePixels_of_neg hr] at hp
    exact absurd hp List.not_mem_nil
  · obtain rfl := mem_circlePixels_zero.1 hp
    simp
  · have hshift : p = (x0 + (p.1 - x0), y0 + (p.2 - y0)) := by ext <;> simp
    rw [hshift, mem_circlePixels_iff_midpointRule hr] at hp
    exact max_le_iff.1 (le_radius_of_midpointRule hr hp)

theorem axis_mem_circlePixels {r : Int} (hr : 0 ≤ r) (x0 y0 : Int) : (x0 + r, y0) ∈ circlePixels x0 y0 r := by
  obtain rfl | hpos := hr.eq_or_lt
  · rw [mem_circlePixels_zero, add_zero]
  · have haxis : (x0 + r, y0 + 0) ∈ circlePixels x0 y0 r := by
      rw [mem_circlePixels_iff_midpointRule hpos, abs_zero, abs_of_pos hpos, min_eq_right hr, max_eq_left hr]
      constructor <;> nlinarith
    rwa [add_zero] at haxis

/-- Settles O34: a reflection keeps the shorter and the longer part; the numbers are those at the origin. -/
theorem circleIsEightWaySymmetric : Obligations.CircleIsEightWaySymmetric := by
  intro x0 y0 r
  refine ⟨fun dx dy h => ?_, fun p => abs_le_of_mem_circlePixels, fun hr => axis_mem_circlePixels hr x0 y0,
    fun p => mem_circlePixels_zero, fun hr => circlePixels_of_neg hr x0 y0,
    fun hr dx dy => mem_circlePixels_iff_midpointRule hr, ?_⟩
  · simp only [sub_eq_add_neg]
    refine ⟨?_, ?_, ?_, ?_, ?_, ?_, ?_⟩ <;> refine mem_circlePixels_congr ?_ ?_ h <;>
      simp [abs_neg, min_comm, max_comm]
  · simp only [circlePixels_dedup_length x0 y0]
    decide +kernel

end Sys2Proof.Machine
end

section
/-! PROOFS. The statements about the line: it visits the discrete line between its endpoints once, and is the same from
either end. -/

namespace Sys2Proof.Machine

/-! ## From either end (42_rasterizer.md R172) -/

/-- Where the columns are no fewer than the rows, the canonical order of the endpoints is the same from either end. -/
theorem linePixelsOrdered_symm {x0 y0 x1 y1 : Int} (steep : Bool) (h : |y1 - y0| ≤ |x1 - x0|) :
    linePixelsOrdered steep x0 y0 x1 y1 = linePixelsOrdered steep x1 y1 x0 y0 := by
  obtain hlt | rfl | hgt := lt_trichotomy x0 x1
  · rw [linePixelsOrdered, if_neg hlt.not_gt, linePixelsOrdered, if_pos hlt]
  · rw [sub_self, abs_zero, abs_nonpos_iff, sub_eq_zero] at h
    rw [h]
  · rw [linePixelsOrdered, if_pos hgt, linePixelsOrdered, if_neg hgt.not_gt]

theorem linePixels_symm (x0 y0 x1 y1 : Int) : linePixels x0 y0 x1 y1 = linePixels x1 y1 x0 y0 := by
  unfold linePixels
  rw [abs_sub_comm x0 x1, abs_sub_comm y0 y1]
  split
  · next hsteep => exact linePixelsOrdered_symm true hsteep.le
  · next hshallow => exact linePixelsOrdered_symm false (not_lt.1 hshallow)

theorem lineAdmitted_symm (cfg : Cfg) (x0 y0 x1 y1 : Int) :
    lineAdmitted cfg x0 y0 x1 y1 = lineAdmitted cfg x1 y1 x0 y0 := by
  rw [Bool.eq_iff_iff, lineAdmitted, lineAdmitted, inRange_iff, inRange_iff, abs_sub_comm x0 x1, abs_sub_comm y0 y1]
  simp only [Admitted, List.forall_mem_cons]
  tauto

/-- Settles O30: admission and pixels are the same from either end. -/
theorem lineIsSymmetric : Obligations.LineIsSymmetric := by
  intro s x0 y0 x1 y1
  simp only [exec, execDrawLine]
  rw [lineAdmitted_symm, linePixels_symm]

/-! ## The discrete line (42_rasterizer.md R171) -/

/-- What R171 says of the pixels between two endpoints. -/
structure DiscreteLine (x0 y0 x1 y1 : Int) (ps : List Pixel) : Prop where
  length : (ps.length : Int) = max |x1 - x0| |y1 - y0| + 1
  nodup : ps.Nodup
  start_mem : (x0, y0) ∈ ps
  stop_mem : (x1, y1) ∈ ps
  adjacent : ∀ k p q, ps[k]? = some p → ps[k + 1]? = some q → |q.1 - p.1| ≤ 1 ∧ |q.2 - p.2| ≤ 1 ∧ q ≠ p
  near : ∀ p ∈ ps, 2 * |(p.1 - x0) * (y1 - y0) - (p.2 - y0) * (x1 - x0)| ≤ max |x1 - x0| |y1 - y0|

/-- It is the discrete line from the other end as well. -/
theorem DiscreteLine.reverse {x0 y0 x1 y1 : Int} {ps : List Pixel} (h : DiscreteLine x0 y0 x1 y1 ps) :
    DiscreteLine x1 y1 x0 y0 ps := by
  refine ⟨?_, h.nodup, h.stop_mem, h.start_mem, h.adjacent, fun p hp => ?_⟩
  · rw [abs_sub_comm x0, abs_sub_comm y0, h.length]
  · rw [abs_sub_comm x0, abs_sub_comm y0, ← abs_neg]
    convert h.near p hp using 3
    ring

/-- Transposed it is the discrete line between the transposed endpoints. -/
theorem DiscreteLine.transpose {x0 y0 x1 y1 : Int} {ps : List Pixel} (h : DiscreteLine x0 y0 x1 y1 ps) :
    DiscreteLine y0 x0 y1 x1 (ps.map Prod.swap) := by
  refine ⟨?_, h.nodup.map Prod.swap_injective, List.mem_map.2 ⟨_, h.start_mem, rfl⟩,
    List.mem_map.2 ⟨_, h.stop_mem, rfl⟩, ?_, ?_⟩
  · rw [List.length_map, h.length, max_comm]
  · intro k p q hp hq
    rw [List.getElem?_map, Option.map_eq_some_iff] at hp hq
    obtain ⟨p, hp, rfl⟩ := hp
    obtain ⟨q, hq, rfl⟩ := hq
    obtain ⟨h1, h2, hne⟩ := h.adjacent k p q hp hq
    exact ⟨h2, h1, fun heq => hne (Prod.swap_injective heq)⟩
  · intro p hp
    obtain ⟨q, hq, rfl⟩ := List.mem_map.1 hp
    rw [max_comm, ← abs_neg]
    convert h.near q hq using 3
    simp

/-! ### Left to right, no steeper than the diagonal -/

/-- The error term in `[0, dx)` fixes the row: only the multiple 0 of `dx` lies between two such terms. -/
theorem row_eq_zero {dx c d : Int} (hc : 0 ≤ c) (hc' : c < dx) (he : 0 ≤ c + d * dx) (he' : c + d * dx < dx) :
    d = 0 := by
  have hlow : -1 < d := lt_of_mul_lt_mul_right (by linarith : -1 * dx < d * dx) (by omega)
  have hhigh : d < 1 := lt_of_mul_lt_mul_right (by linarith : d * dx < 1 * dx) (by omega)
  omega

/-- From one column to the next the row moves on by none or one. -/
theorem row_step {dx dy c d : Int} (hdy : 0 ≤ dy) (hle : dy ≤ dx) (hc : 0 ≤ c) (hc' : c < dx) (he : 0 ≤ c - dy + d * dx)
    (he' : c - dy + d * dx < dx) : d = 0 ∨ d = 1 := by
  have hlow : -1 < d := lt_of_mul_lt_mul_right (by linarith : -1 * dx < d * dx) (by omega)
  have hhigh : d < 2 := lt_of_mul_lt_mul_right (by linarith : d * dx < 2 * dx) (by omega)
  omega

/-- The pixels of a shallow line from left to right: in column `k` the row `j` keeps the error term of R170 in
`[0, dx)`. -/
structure ShallowRun (dx dy ystep x0 y0 : Int) (ps : List Pixel) : Prop where
  dx_pos : 0 < dx
  dy_nonneg : 0 ≤ dy
  dy_le : dy ≤ dx
  unit : ystep = 1 ∨ ystep = -1
  length : (ps.length : Int) = dx + 1
  get : ∀ k : Nat, (k : Int) ≤ dx → ∃ j : Int, ps[k]? = some (x0 + k, y0 + ystep * j) ∧
    0 ≤ dx / 2 - k * dy + j * dx ∧ dx / 2 - k * dy + j * dx < dx

section
variable {dx dy ystep x0 y0 : Int} {ps : List Pixel}

/-- What a pixel at a known place is. -/
theorem ShallowRun.of_getElem? (h : ShallowRun dx dy ystep x0 y0 ps) {k : Nat} {p : Pixel} (hp : ps[k]? = some p) :
    ∃ j : Int, p = (x0 + k, y0 + ystep * j) ∧ 0 ≤ dx / 2 - k * dy + j * dx ∧ dx / 2 - k * dy + j * dx < dx := by
  have hlength := h.length
  have hk := (List.getElem?_eq_some_iff.1 hp).1
  obtain ⟨j, hj, he⟩ := h.get k (by omega)
  exact ⟨j, Option.some.inj (hp.symm.trans hj), he⟩

theorem ShallowRun.nodup (h : ShallowRun dx dy ystep x0 y0 ps) : ps.Nodup := by
  refine List.nodup_iff_getElem?_ne_getElem?.2 fun i j hij hj heq => ?_
  obtain ⟨p, hp⟩ : ∃ p, ps[j]? = some p := ⟨_, List.getElem?_eq_getElem hj⟩
  obtain ⟨r, hr, -⟩ := h.of_getElem? hp
  obtain ⟨r', hr', -⟩ := h.of_getElem? (heq.trans hp)
  rw [hr, Prod.mk.injEq] at hr'
  omega

theorem ShallowRun.start_mem (h : ShallowRun dx dy ystep x0 y0 ps) : (x0, y0) ∈ ps := by
  have hdx := h.dx_pos
  obtain ⟨j, hj, he, he'⟩ := h.get 0 (by exact_mod_cast hdx.le)
  obtain rfl : j = 0 := row_eq_zero (dx := dx) (c := dx / 2) (by omega) (by omega) (by simpa using he)
    (by simpa using he')
  exact List.mem_of_getElem? (by simpa using hj)

theorem ShallowRun.stop_mem (h : ShallowRun dx dy ystep x0 y0 ps) : (x0 + dx, y0 + ystep * dy) ∈ ps := by
  have hdx := h.dx_pos
  have hcast : (dx.toNat : Int) = dx := Int.toNat_of_nonneg hdx.le
  obtain ⟨j, hj, he, he'⟩ := h.get dx.toNat hcast.le
  rw [hcast] at hj he he'
  have hrow : j - dy = 0 := row_eq_zero (dx := dx) (c := dx / 2) (by omega) (by omega) (by linarith) (by linarith)
  rw [← sub_eq_zero.1 hrow]
  exact List.mem_of_getElem? hj

theorem ShallowRun.adjacent (h : ShallowRun dx dy ystep x0 y0 ps) {k : Nat} {p q : Pixel} (hp : ps[k]? = some p)
    (hq : ps[k + 1]? = some q) : |q.1 - p.1| ≤ 1 ∧ |q.2 - p.2| ≤ 1 ∧ q ≠ p := by
  obtain ⟨j, rfl, he, he'⟩ := h.of_getElem? hp
  obtain ⟨j', rfl, hf, hf'⟩ := h.of_getElem? hq
  push_cast at hf hf'
  have hrow : j' - j = 0 ∨ j' - j = 1 := row_step h.dy_nonneg h.dy_le he he' (by linarith) (by linarith)
  have hdiff : y0 + ystep * j' - (y0 + ystep * j) = ystep * (j' - j) := by ring
  refine ⟨by simp, ?_, fun heq => by simp at heq⟩
  rw [hdiff]
  obtain hu | hu := h.unit <;> obtain hr | hr := hrow <;> simp [hu, hr]

/-- The distance from the ideal line, scaled, is what the error term differs from its start. -/
theorem ShallowRun.near (h : ShallowRun dx dy ystep x0 y0 ps) {p : Pixel} (hp : p ∈ ps) :
    2 * |(p.1 - x0) * (ystep * dy) - (p.2 - y0) * dx| ≤ dx := by
  obtain ⟨k, hk⟩ := List.mem_iff_getElem?.1 hp
  obtain ⟨j, rfl, he, he'⟩ := h.of_getElem? hk
  have hdiff : (x0 + k - x0) * (ystep * dy) - (y0 + ystep * j - y0) * dx = ystep * (k * dy - j * dx) := by ring
  have habs : |ystep| = 1 := by obtain hu | hu := h.unit <;> simp [hu]
  have hbound : |k * dy - j * dx| ≤ dx / 2 := abs_le.2 ⟨by omega, by omega⟩
  rw [hdiff, abs_mul, habs, one_mul]
  omega

end

/-- The direction of the rows times their number is their difference. -/
theorem ystep_mul_abs (a b : Int) : (if a < b then 1 else -1) * |b - a| = b - a := by
  split
  · rw [abs_of_pos (by omega), one_mul]
  · rw [abs_of_nonpos (by omega)]
    ring

/-- The loop of R170 makes such a run. -/
theorem linePixelsFrom_shallowRun {x0 y0 x1 y1 : Int} (hx : x0 < x1) (hy : |y1 - y0| ≤ x1 - x0) :
    ShallowRun (x1 - x0) |y1 - y0| (if y0 < y1 then 1 else -1) x0 y0 (linePixelsFrom false x0 y0 x1 y1) := by
  refine ⟨by omega, abs_nonneg _, hy, by split <;> simp, ?_, fun k hk => ?_⟩
  · simp only [linePixelsFrom, lineLoop_length]
    omega
  · obtain ⟨j, e, hget, rfl, hnonneg, hlt, -⟩ := lineLoop_get false (if y0 < y1 then 1 else -1)
      (abs_nonneg (y1 - y0)) hy (x1 - x0 + 1).toNat x0 y0 ((x1 - x0) / 2) (by omega) (by omega) k (by omega)
    exact ⟨j, hget, hnonneg, by omega⟩

/-- The discrete line of one pixel. -/
theorem discreteLine_singleton (x y : Int) : DiscreteLine x y x y [(x, y)] :=
  ⟨by simp, List.nodup_singleton _, List.mem_singleton_self _, List.mem_singleton_self _,
    fun k p q _ hq => by simp at hq, fun p _ => by simp⟩

/-- Left to right and no steeper than the diagonal, the line is the discrete line. -/
theorem linePixelsFrom_discreteLine {x0 y0 x1 y1 : Int} (hx : x0 ≤ x1) (hy : |y1 - y0| ≤ x1 - x0) :
    DiscreteLine x0 y0 x1 y1 (linePixelsFrom false x0 y0 x1 y1) := by
  obtain rfl | hlt := hx.eq_or_lt
  · rw [sub_self, abs_nonpos_iff, sub_eq_zero] at hy
    subst hy
    simpa [linePixelsFrom, lineLoop] using discreteLine_singleton x0 y1
  · have hrun := linePixelsFrom_shallowRun hlt hy
    have hlong : max |x1 - x0| |y1 - y0| = x1 - x0 := by rw [abs_of_pos hrun.dx_pos, max_eq_left hy]
    have hdir := ystep_mul_abs y0 y1
    refine ⟨by rw [hlong, hrun.length], hrun.nodup, hrun.start_mem, ?_, fun _ _ _ => hrun.adjacent, fun p hp => ?_⟩
    · have hlast := hrun.stop_mem
      rwa [hdir, add_sub_cancel, add_sub_cancel] at hlast
    · rw [hlong, ← hdir]
      exact hrun.near hp

theorem linePixelsOrdered_discreteLine {x0 y0 x1 y1 : Int} (hy : |y1 - y0| ≤ |x1 - x0|) :
    DiscreteLine x0 y0 x1 y1 (linePixelsOrdered false x0 y0 x1 y1) := by
  unfold linePixelsOrdered
  split
  · next hlt =>
    rw [abs_sub_comm y1, abs_of_neg (sub_neg.2 hlt), neg_sub] at hy
    exact (linePixelsFrom_discreteLine hlt.le hy).reverse
  · next hge =>
    rw [abs_of_nonneg (sub_nonneg.2 (not_lt.1 hge))] at hy
    exact linePixelsFrom_discreteLine (not_lt.1 hge) hy

theorem linePixels_discreteLine (x0 y0 x1 y1 : Int) : DiscreteLine x0 y0 x1 y1 (linePixels x0 y0 x1 y1) := by
  unfold linePixels
  split
  · next hsteep =>
    rw [linePixelsOrdered_steep]
    exact (linePixelsOrdered_discreteLine hsteep.le).transpose
  · next hshallow => exact linePixelsOrdered_discreteLine (not_lt.1 hshallow)

/-- Settles O29: the line is a shallow one from left to right, seen from the other end or transposed where it has to
be. -/
theorem lineVisitsDiscreteLineOnce : Obligations.LineVisitsDiscreteLineOnce := by
  intro x0 y0 x1 y1
  have h := linePixels_discreteLine x0 y0 x1 y1
  exact ⟨h.length, h.nodup, h.start_mem, h.stop_mem, h.adjacent, h.near⟩

end Sys2Proof.Machine
end

section
/-! PROOFS. The statements about strings: the loop draws the characters up to the first place to stop, the limit of the
bounded request being one more. -/

namespace Sys2Proof.Machine

/-- The loop draws the first `m` characters, none of which stops it, and stops at `m`: at the limit, at the end of the
operand, at a 0 byte or at the edge (43_glyph_renderer.md R215 to R217). -/
theorem putString_eq_putGlyphs (cfg : Cfg) (font : List Byte) (y : Int) (chars : List Byte) {limit : Option Nat}
    {m : Nat} {x : Int} (fb : Memory) (hlimit : ∀ n, limit = some n → m ≤ n)
    (hrun : ∀ k < m, k < chars.length ∧ chars.getD k 0 ≠ 0 ∧ x + k * (cfg.glyphW + 1) + cfg.glyphW ≤ cfg.width)
    (hstop : limit = some m ∨ m = chars.length ∨ chars.getD m 0 = 0 ∨
      (cfg.width : Int) < x + m * (cfg.glyphW + 1) + cfg.glyphW) :
    putString cfg font y chars limit x fb = putGlyphs cfg font fb x y chars m := by
  induction chars generalizing limit m x fb with
  | nil =>
    obtain rfl : m = 0 := Nat.eq_zero_of_not_pos fun hm => Nat.not_lt_zero 0 (hrun 0 hm).1
    exact putString_nil ..
  | cons ch rest ih =>
    by_cases hl : limit = some 0
    · obtain rfl : m = 0 := Nat.le_zero.1 (hlimit 0 hl)
      rw [hl, putString_limit_zero]
      rfl
    rw [putString_cons cfg font y ch rest hl]
    cases m with
    | zero =>
      obtain h | h | h | h := hstop
      · exact absurd h hl
      · exact absurd h (Nat.succ_ne_zero _).symm
      · rw [if_pos (by simpa using h)]
        rfl
      · have hedge : (cfg.width : Int) < x + cfg.glyphW := by simpa using h
        rw [if_pos hedge, ite_self]
        rfl
    | succ m =>
      obtain ⟨-, hch, hfits⟩ := hrun 0 m.succ_pos
      have hadvance : ∀ k : Nat, x + (k + 1 : Nat) * (cfg.glyphW + 1 : Int) =
          x + cfg.glyphW + 1 + k * (cfg.glyphW + 1) := fun k => by push_cast; ring
      rw [if_neg (by simpa using hch), if_neg (by simpa using hfits), putGlyphs_cons]
      refine ih _ (fun n hn => ?_) (fun k hk => ?_) ?_
      · obtain ⟨n', hn', rfl⟩ := Option.map_eq_some_iff.1 hn
        exact Nat.le_pred_of_lt (hlimit n' hn')
      · have hnext := hrun (k + 1) (by omega)
        rw [hadvance] at hnext
        simpa using hnext
      · rw [hadvance] at hstop
        obtain h | h | h | h := hstop
        · exact .inl (by rw [h]; rfl)
        · exact .inr (.inl (by simpa using h))
        · exact .inr (.inr (.inl (by simpa using h)))
        · exact .inr (.inr (.inr h))

/-- Settles O39: without a limit the loop stops at the three other places. -/
theorem drawStringStopsAtTerminatorOrEdge : Obligations.DrawStringStopsAtTerminatorOrEdge := by
  intro s x y str m hshared hadm hrun hstop
  simp only [exec, execDrawString, stringAdmitted, hshared, whenAdmitted_of_admitted hadm]
  rw [putString_eq_putGlyphs s.cfg s.font y str.data s.fb (fun n hn => by cases hn) hrun (.inr hstop)]
  rfl

/-- Settles O40: the limit is the count as a natural number. -/
theorem drawStringNStopsAtLimit : Obligations.DrawStringNStopsAtLimit := by
  intro s x y n str m hshared hadm hn hm hrun hstop
  have hlimit : ∀ k, some n.toNat = some k → m ≤ k := fun k hk => by
    have := Option.some.inj hk
    omega
  have hstop : some n.toNat = some m ∨ m = str.data.length ∨ str.data.getD m 0 = 0 ∨
      (s.cfg.width : Int) < x + m * (s.cfg.glyphW + 1) + s.cfg.glyphW :=
    hstop.imp_left fun h => congrArg some (by omega)
  simp only [exec, execDrawStringN, stringNAdmitted_iff.2 ⟨hadm, hn⟩, hshared, whenAdmitted_run]
  rw [putString_eq_putGlyphs s.cfg s.font y str.data s.fb hlimit hrun hstop]
  rfl

end Sys2Proof.Machine
end

section
/-! PROOFS. The statements about construction, about what no instruction does, and about who writes the framebuffer and
the `initialized` flag. -/

namespace Sys2Proof.Machine

/-! ## Construction (70_reset_and_hazards.md R310, R311) -/

theorem legal_iff {cfg : Cfg} : cfg.legal = true ↔
    1 ≤ cfg.width ∧ cfg.width ≤ 128 ∧ 8 ≤ cfg.height ∧ cfg.height ≤ 128 ∧ cfg.height % 8 = 0 ∧ 1 ≤ cfg.glyphW ∧
      1 ≤ cfg.glyphH ∧ cfg.glyphH ≤ 8 ∧ cfg.firstChar ≤ cfg.lastChar ∧ cfg.lastChar ≤ 255 := by
  simp [Cfg.legal, and_assoc]

/-- Settles O1: the legal values are those checked; the state constructed has nothing written and no event. -/
theorem constructionState : Obligations.ConstructionState := by
  refine fun cfg font => ⟨fun hlegal => ?_, fun hillegal => ?_⟩
  · exact ⟨_, construct_next.2 ⟨legal_iff.2 hlegal, rfl⟩, Memory.read_nil_eq_zero, rfl, rfl, rfl, rfl, rfl, rfl,
      fun _ => rfl⟩
  · have hnot : ¬ cfg.legal = true := by
      rw [legal_iff]
      omega
    rw [construct, if_neg hnot]

/-! ## No fault (60_exceptions.md R280) -/

theorem whenAdmitted_ne_fault (inR sharesFb : Bool) (t : State) (f : Fault) :
    whenAdmitted inR sharesFb (.next t) ≠ .fault f := by
  cases inR <;> cases sharesFb <;> simp [whenAdmitted]

theorem whenReady_ne_fault (s t : State) (f : Fault) : whenReady s (.next t) ≠ .fault f := by
  unfold whenReady
  split <;> simp

/-- Settles O10: an instruction completes, or its admission or its lifecycle state refuses it. -/
theorem instructionsNeverFault : Obligations.InstructionsNeverFault := by
  intro i s f
  cases i with
  | setPixel | getPixel | drawLine | drawRect | drawCircle | drawBitmap | drawChar | drawString | drawStringN =>
    exact whenAdmitted_ne_fault _ _ _ f
  | display | sendCommand => exact whenReady_ne_fault s _ f
  | _ => exact fun h => by cases h

/-! ## Who writes the framebuffer (10_state.md R21) -/

/-- Settles O58: outside the drawing family every frame keeps `FB`. -/
theorem onlyDrawingWritesFrameBuffer : Obligations.OnlyDrawingWritesFrameBuffer := by
  intro i s t h hf
  have hfb : t.fb = s.fb := by
    obtain ⟨-, r, rfl⟩ | ⟨hdrawing, -⟩ | ⟨-, hseq⟩ := exec_next_cases h
    · exact State.setRet_fb s r
    · exact absurd hdrawing hf
    · obtain ⟨hfb, -⟩ := hseq.frame
      exact hfb
  exact ⟨hfb, fun a => by rw [hfb]⟩

end Sys2Proof.Machine
end

section
/-! PROOFS. The statements about the sequencer: what INITIALIZE, DEINITIALIZE, DISPLAY and SEND_COMMAND send, how they
end, and what they do without a bus. -/

namespace Sys2Proof.Machine

/-! ## Frames and answers -/

/-- A later frame of a sequencer request, after another. -/
theorem frameOfSequencer.trans {s t u : State} (h : frameOfSequencer s t) (h' : frameOfSequencer t u) :
    frameOfSequencer s u := by
  obtain ⟨h1, h2, h3, h4, h5⟩ := h
  obtain ⟨h1', h2', h3', h4', h5'⟩ := h'
  exact ⟨h1'.trans h1, h2'.trans h2, h3'.trans h3, h4'.trans h4, h5'.trans h5⟩

theorem frameOfSequencer_setLc (s : State) (lc : Lifecycle) : frameOfSequencer s (s.setLc lc) :=
  ⟨rfl, rfl, rfl, rfl, rfl⟩

theorem frameOfSequencer_setRet (s : State) (r : Ret) : frameOfSequencer s (s.setRet r) :=
  ⟨rfl, rfl, rfl, rfl, rfl⟩

/-- Without a bus every answer is a success (44_sequencer.md R243). -/
theorem answer_of_no_bus {s : State} (h : s.cfg.hasBus = false) (k : Nat) : s.answer k = true := by
  simp [State.answer, h]

/-! ## INITIALIZE (44_sequencer.md R245 to R247) -/

theorem exec_initializeDriver (s : State) :
    exec .initializeDriver s = .next (initializeEnd (initializeRun s).1 (initializeRun s).2) := rfl

/-- What INITIALIZE does, by its answers. -/
structure Initialized (s t : State) : Prop where
  frame : frameOfSequencer s t
  trace : t.trace = s.trace ++ pulseEvents s.cfg ++
    transmissionEvents s 0 ((initSeq s.cfg).map fun c => (Level.low, Command.encode s.cfg.cmds c))
  success : (∀ k < 7, s.answer k = true) → t.lc = .ready ∧ t.ret = .code .ok
  failure : (∃ k < 7, s.answer k = false) → (t.lc = .ready ∨ t.lc = .uninitialized) ∧ t.ret = .code .transportFail

theorem failedInitLc_cases (b : Bool) : failedInitLc b = .ready ∨ failedInitLc b = .uninitialized := by
  cases b
  · exact .inr rfl
  · exact .inl rfl

theorem exec_initializeDriver_spec {s t : State} (h : exec .initializeDriver s = .next t) : Initialized s t := by
  obtain ⟨hrun, htrace, hok⟩ := initializeRun_spec s
  rw [exec_initializeDriver] at h
  generalize initializeRun s = u at h hrun htrace hok
  obtain ⟨hend, htraceEnd, -⟩ := initializeEnd_spec u.1 u.2
  cases h
  refine ⟨(frameOfSequencer_setLc s _).trans (hrun.frameOfSequencer.trans hend), htraceEnd.trans htrace, fun hall => ?_,
    fun ⟨k, hk, hfail⟩ => ?_⟩
  · rw [hok.2 hall]
    exact ⟨rfl, rfl⟩
  · have hnot : u.2 = false := Bool.eq_false_iff.2 fun hall => by
      rw [hok.1 hall k hk] at hfail
      cases hfail
    rw [hnot]
    exact ⟨failedInitLc_cases _, rfl⟩

/-- Settles O41: the run sends everything, and its end reports the answers. -/
theorem initializeSendsWholeSequence : Obligations.InitializeSendsWholeSequence := by
  intro s
  have h := exec_initializeDriver_spec (exec_initializeDriver s)
  exact ⟨_, rfl, h.frame, h.trace, h.success, h.failure⟩

/-- The payload of the display clock is its two fields, one above the other (30_encoding.md R71, format C2P). -/
theorem encode_setDisplayClock (T : CmdTable) (div osc : BitVec 4) :
    Command.encode T (.setDisplayClock div.toNat osc.toNat) = [T.displayClock, osc ++ div] := by
  have hpayload : BitVec.ofNat 8 (trunc 4 osc.toNat) <<< 4 ||| BitVec.ofNat 8 (trunc 4 div.toNat) = osc ++ div := by
    apply BitVec.eq_of_toNat_eq
    rw [payloadC2P_toNat osc.isLt div.isLt, BitVec.toNat_append, Nat.shiftLeft_eq, mul_comm osc.toNat,
      ← Nat.two_pow_add_eq_or_of_lt div.isLt]
  rw [Command.encode, encC2P, hpayload]

/-- The frames of the init sequence on the 128-row panel under the reference values (44_sequencer.md R248). -/
theorem initSeq_bytes {cfg : Cfg} {off on : CpBytes} (hcmds : cfg.cmds = .withPump off on)
    (hheight : cfg.height = 128) :
    ((initSeq cfg).map fun c => (Level.low, Command.encode cfg.cmds c)) =
      [(.low, [0xAE]), (.low, [0xD5, cfg.initClockOsc ++ cfg.initClockDiv]), (.low, [0xA8, 0x7F]), (.low, [0xD3, 0x00]),
        (.low, [0xDC, 0x00]), (.low, on.bytes), (.low, [0xAF])] := by
  simp only [initSeq, List.map_cons, List.map_nil, hcmds, hheight, encode_setChargePump, encode_setDisplayClock]
  simp [Command.encode, encC1, encC2, trunc]

/-- With every capability present the pulse is its four events (44_sequencer.md R244). -/
theorem pulseEvents_of_present {cfg : Cfg} (hgpio : cfg.hasGpio = true) (hdelay : cfg.hasDelay = true) :
    pulseEvents cfg =
      [.gpioWrite .rst .low, .delay cfg.resetDelayMs, .gpioWrite .rst .high, .delay cfg.resetDelayMs] := by
  simp [pulseEvents, eventPresent, hgpio, hdelay]

/-- With both capabilities a framed transmission is its two events (44_sequencer.md R240). -/
theorem frameEvents_of_present {cfg : Cfg} (hgpio : cfg.hasGpio = true) (hbus : cfg.hasBus = true) (level : Level)
    (bytes : List Byte) (ok : Bool) :
    frameEvents cfg level bytes ok = [.gpioWrite .dc level, .busTransmit bytes ok] := by
  simp [frameEvents, eventPresent, hgpio, hbus]

/-- Settles O42: every capability is present, so the pulse is four events and each of the seven commands two. -/
theorem initializeTraceBytes : Obligations.InitializeTraceBytes := by
  intro s t off on hcmds hheight hms hgpio hbus hdelay h
  rw [(exec_initializeDriver_spec h).trace, List.append_assoc, initSeq_bytes hcmds hheight,
    pulseEvents_of_present hgpio hdelay, hms]
  simp only [transmissionEvents, frameEvents_of_present hgpio hbus]
  rfl

/-- The commands of the init sequence fit their fields on every legal panel. -/
theorem wellFormed_of_mem_initSeq {cfg : Cfg} (hheight : cfg.height ≤ 128) {c : Command} (hc : c ∈ initSeq cfg) :
    c.wellFormed = true := by
  simp only [initSeq, List.mem_cons, List.not_mem_nil, or_false] at hc
  obtain rfl | rfl | rfl | rfl | rfl | rfl | rfl := hc
  case inr.inl =>
    exact Bool.and_eq_true_iff.2 ⟨fitsField_iff.2 cfg.initClockDiv.isLt, fitsField_iff.2 cfg.initClockOsc.isLt⟩
  case inr.inr.inl => exact fitsField_iff.2 (by omega)
  all_goals rfl

/-- With both capabilities the bytes of the pulse and of command frames after it are the commands', all in command
framing. -/
theorem framedBytes_commands {s : State} (hgpio : s.cfg.hasGpio = true) (hbus : s.cfg.hasBus = true)
    (cs : List Command) (level : Level) :
    framedBytes level (byteStream (pulseEvents s.cfg ++
        transmissionEvents s 0 (cs.map fun c => (Level.low, Command.encode s.cfg.cmds c)))) =
      if level = .low then cs.flatMap (Command.encode s.cfg.cmds) else [] := by
  rw [byteStream, byteStreamFrom_append, byteStreamFrom_pulse, List.nil_append, byteStreamFrom_transmissions hgpio hbus,
    framedBytes_transmissions]
  cases level <;> simp [List.filter_map, Function.comp_def, List.flatMap_map]

/-- Settles O43: the command bytes are those of the init sequence, whose commands read back. -/
theorem initializeStreamSpellsSequence : Obligations.InitializeStreamSpellsSequence := by
  intro s t off on hcmds hpump _ hheight hgpio hbus h
  refine ⟨_, (exec_initializeDriver_spec h).trace.trans (List.append_assoc _ _ _), ?_, ?_⟩
  · rw [framedBytes_commands hgpio hbus, if_neg (by decide)]
  · rw [framedBytes_commands hgpio hbus, if_pos rfl, hcmds]
    exact readCommands_encodings fun c hc rest =>
      decodeCommand_encode (wellFormed_of_mem_initSeq hheight hc) (fun _ _ => hpump) rest

/-! ## DEINITIALIZE (44_sequencer.md R250) -/

/-- DEINITIALIZE up to its transmission. -/
theorem deinitializeRun_spec (s : State) :
    PortFrame (s.setLc .deinitializing) (deinitializeRun s).1 ∧
      (deinitializeRun s).1.trace = s.trace ++ pulseEvents s.cfg ++
        frameEvents s.cfg .low (Command.encode s.cfg.cmds (.setDisplayOnOff 0)) (s.answer 0) ∧
      (deinitializeRun s).2 = s.answer 0 := by
  have hpulse := resetPulse_spec (s.setLc .deinitializing)
  have hsent := sendFrame_spec (commandFrame s.cfg (.setDisplayOnOff 0)) (resetPulse (s.setLc .deinitializing))
  have hanswer : (resetPulse (s.setLc .deinitializing)).answer 0 = s.answer 0 := hpulse.answers 0
  refine ⟨hpulse.frame.trans hsent.frame, ?_, hsent.ok_eq.trans hanswer⟩
  have htrace := hsent.trace
  rw [hpulse.trace, hpulse.frame.cfg, hanswer] at htrace
  exact htrace

/-- Settles O44: the run sends the pulse and the one frame, and its end sets `LC` and reports the answer. -/
theorem deinitializePulsesAndSwitchesOff : Obligations.DeinitializePulsesAndSwitchesOff := by
  intro s
  obtain ⟨hrun, htrace, hok⟩ := deinitializeRun_spec s
  refine ⟨_, rfl, ?_, rfl, htrace, congrArg (fun ok => Ret.code (codeOf ok)) hok⟩
  exact (frameOfSequencer_setLc s _).trans (hrun.frameOfSequencer.trans
    ((frameOfSequencer_setLc _ _).trans (frameOfSequencer_setRet _ _)))

/-! ## DISPLAY and SEND_COMMAND (44_sequencer.md R255 to R260) -/

theorem whenReady_of_ready {s : State} (h : s.lc = .ready) (run : Host.Outcome State Fault Refusal) :
    whenReady s run = run := by
  rw [whenReady, State.initialized, h]
  rfl

theorem whenReady_of_not_ready {s : State} (h : s.lc ≠ .ready) (run : Host.Outcome State Fault Refusal) :
    whenReady s run = .refused .notReady := by
  rw [whenReady, State.initialized, decide_eq_false h]
  rfl

/-- Settles O47: neither is ready. -/
theorem notReadyRefused : Obligations.NotReadyRefused :=
  fun _ _ h => ⟨whenReady_of_not_ready h _, whenReady_of_not_ready h _⟩

theorem exec_display {s : State} (h : s.lc = .ready) :
    exec .display s = reportOutcome (sendUntilFailure (flushFrames s.cfg s.fb) s) := whenReady_of_ready h _

theorem exec_sendCommand {s : State} (h : s.lc = .ready) (cmd : Command) :
    exec (.sendCommand cmd) s = reportOutcome (sendFrame (commandFrame s.cfg cmd) s) := whenReady_of_ready h _

/-- A run of the host port, reported, keeps what it kept, and hands its answer back. -/
theorem reportOutcome_spec {s : State} {r : State × Bool} (h : PortFrame s r.1) :
    ∃ t, reportOutcome r = .next t ∧ frameOfSequencer s t ∧ t.lc = s.lc ∧ t.ret = .code (codeOf r.2) ∧
      t.trace = r.1.trace :=
  ⟨_, rfl, h.frameOfSequencer.trans (frameOfSequencer_setRet _ _), h.lc, rfl, rfl⟩

/-- The first frames of a flush are its first transmissions. -/
theorem framePairs_take_flush {cfg : Cfg} {n : Nat} (hn : n ≤ 4 * cfg.pages) (fb : Memory) :
    framePairs ((flushFrames cfg fb).take n) = flushTransmissions cfg fb n := by
  rw [framePairs, List.map_take, ← framePairs, framePairs_flush, flushTransmissions, ← List.map_take, List.take_range,
    min_eq_left hn, flushTransmissions]

/-- Settles O45: a flush whose answers are successes runs to its end, any other to its first failure. -/
theorem displaySendsUntilFirstFailure : Obligations.DisplaySendsUntilFirstFailure := by
  intro s hready
  rw [exec_display hready]
  refine ⟨fun hall => ?_, fun n hn hbefore hfail => ?_⟩
  · obtain ⟨hframe, hok, htrace⟩ := sendUntilFailure_success (flushFrames s.cfg s.fb) s
      (by rw [flushFrames_length]; exact hall)
    obtain ⟨t, ht, htframe, hlc, hret, htr⟩ := reportOutcome_spec hframe
    rw [hok] at hret
    rw [htrace, framePairs_flush] at htr
    exact ⟨t, ht, htframe, hlc.trans hready, hret, htr⟩
  · obtain ⟨hframe, hok, htrace⟩ := sendUntilFailure_failure (flushFrames s.cfg s.fb) s n
      (by rw [flushFrames_length]; exact hn) hbefore hfail
    obtain ⟨t, ht, htframe, hlc, hret, htr⟩ := reportOutcome_spec hframe
    rw [hok] at hret
    rw [htrace, framePairs_take_flush hn] at htr
    exact ⟨t, ht, htframe, hlc.trans hready, hret, htr⟩

/-- Settles O48: one frame is sent and its answer reported. -/
theorem sendCommandTransmitsOnce : Obligations.SendCommandTransmitsOnce := by
  intro s cmd hready
  have hsent := sendFrame_spec (commandFrame s.cfg cmd) s
  obtain ⟨t, ht, htframe, hlc, hret, htr⟩ := reportOutcome_spec hsent.frame
  rw [hsent.ok_eq] at hret
  exact ⟨t, (exec_sendCommand hready cmd).trans ht, htframe, hlc.trans hready, htr.trans hsent.trace, hret⟩

/-! ## `LC` inside a sequence (10_state.md R24) -/

/-- Settles O52: the host port leaves the transient value. -/
theorem transientLifecycleDuringSequence : Obligations.TransientLifecycleDuringSequence := by
  intro s
  have hinit := (resetPulse_spec (s.setLc .initializing)).frame
  obtain ⟨hinitRun, -⟩ := initializeRun_spec s
  obtain ⟨hdeinitRun, -⟩ := deinitializeRun_spec s
  refine ⟨hinit.lc, fun n => ?_, hinitRun.lc, (resetPulse_spec (s.setLc .deinitializing)).frame.lc, hdeinitRun.lc⟩
  obtain ⟨hsent, -⟩ := sendAll_spec (((initSeq s.cfg).take n).map (commandFrame s.cfg))
    (resetPulse (s.setLc .initializing))
  exact hsent.lc.trans hinit.lc

end Sys2Proof.Machine
end

section
/-! PROOFS. The statements about the whole machine that rest on the sequencer's: without a bus nothing fails, and who
sets and clears the `initialized` flag. -/

namespace Sys2Proof.Machine

/-! ## Without a bus (44_sequencer.md R243) -/

/-- Without a bus no event of a sequencer request is a transmission. -/
theorem eventOf_ne_busTransmit {cfg : Cfg} {fs : List Frame} {e : HostEvent} (hbus : cfg.hasBus = false)
    (h : eventOf cfg fs e) (bytes : List Byte) (ok : Bool) : e ≠ .busTransmit bytes ok := by
  rintro rfl
  obtain ⟨hpresent, -⟩ := h
  exact Bool.false_ne_true (hbus.symm.trans hpresent)

theorem exec_deinitializeDriver_spec {s t : State} (h : exec .deinitializeDriver s = .next t) :
    t.lc = .uninitialized ∧ t.ret = .code (if s.answer 0 then .ok else .transportFail) := by
  obtain ⟨t', ht', -, hlc, -, hret⟩ := deinitializePulsesAndSwitchesOff s
  obtain rfl : t' = t := Host.Outcome.next.inj (ht'.symm.trans h)
  exact ⟨hlc, hret⟩

/-- Without a bus a sequencer request that completes answers OK. -/
theorem exec_sequencer_ok_of_no_bus {i : Instr} {s t : State} (hbus : s.cfg.hasBus = false)
    (hf : family i = .lifecycle ∨ family i = .output) (h : exec i s = .next t) : t.ret = .code .ok := by
  have hall : ∀ k, s.answer k = true := answer_of_no_bus hbus
  rw [family_eq_lifecycle_iff, family_eq_output_iff] at hf
  obtain (rfl | rfl) | rfl | ⟨cmd, rfl⟩ := hf
  · exact ((exec_initializeDriver_spec h).success fun k _ => hall k).2
  · rw [(exec_deinitializeDriver_spec h).2, hall, if_pos rfl]
  · obtain ⟨hready, -⟩ := whenReady_next.1 h
    obtain ⟨hsuccess, -⟩ := displaySendsUntilFirstFailure s hready
    obtain ⟨t', ht', -, -, hret, -⟩ := hsuccess fun k _ => hall k
    obtain rfl : t' = t := Host.Outcome.next.inj (ht'.symm.trans h)
    exact hret
  · obtain ⟨hready, -⟩ := whenReady_next.1 h
    obtain ⟨t', ht', -, -, -, hret⟩ := sendCommandTransmitsOnce s cmd hready
    obtain rfl : t' = t := Host.Outcome.next.inj (ht'.symm.trans h)
    rw [hret, hall, if_pos rfl]

/-- Outside the sequencer nothing reports a transmission. -/
theorem exec_ret_ne_code {i : Instr} {s t : State} (hl : family i ≠ .lifecycle) (ho : family i ≠ .output)
    (h : exec i s = .next t) (c : ResultCode) : t.ret ≠ .code c := by
  cases hf : family i with
  | encoder =>
    obtain ⟨bs, rfl⟩ := exec_encoder_next hf h
    exact fun hret => by cases hret
  | pixelRead =>
    obtain ⟨x, y, rfl⟩ := family_eq_pixelRead_iff.1 hf
    obtain rfl := exec_getPixel_next h
    exact fun hret => by cases hret
  | drawing =>
    rw [(exec_drawing hf h).ret]
    exact fun hret => by cases hret
  | lifecycle => exact absurd hf hl
  | output => exact absurd hf ho

/-- Settles O49: a sequencer request answers OK and gives no transmission event; outside the sequencer no code is handed
back and no event given. -/
theorem absentBusNeverFails : Obligations.AbsentBusNeverFails := by
  intro i s t hbus h
  by_cases hf : family i = .lifecycle ∨ family i = .output
  · obtain ⟨evs, htrace, hevs⟩ := (exec_sequencer hf h).trace
    refine ⟨?_, evs, htrace, fun bytes ok hmem => eventOf_ne_busTransmit hbus (hevs _ hmem) bytes ok rfl⟩
    rw [exec_sequencer_ok_of_no_bus hbus hf h]
    exact fun hret => by cases hret
  · obtain ⟨hl, ho⟩ := not_or.1 hf
    obtain ⟨htrace, -⟩ := onlySequencerEmitsEvents i s t h hl ho
    exact ⟨exec_ret_ne_code hl ho h _, [], by rw [htrace, List.append_nil], fun _ _ => List.not_mem_nil⟩

/-! ## The `initialized` flag (10_state.md R27) -/

theorem initialized_iff {s : State} : s.initialized = true ↔ s.lc = .ready := decide_eq_true_iff

/-- An instruction that changed the flag is a lifecycle request. -/
theorem lifecycle_of_initialized_ne {i : Instr} {s t : State} (h : exec i s = .next t)
    (hne : t.initialized ≠ s.initialized) : i = .initializeDriver ∨ i = .deinitializeDriver := by
  rw [← family_eq_lifecycle_iff]
  by_contra hf
  exact hne (by rw [State.initialized, exec_next_lc hf h, ← State.initialized])

/-- An INITIALIZE that did not leave READY saw a failure (44_sequencer.md R246). -/
theorem Initialized.transportFail {s t : State} (h : Initialized s t) (hlc : t.lc ≠ .ready) :
    t.ret = .code .transportFail := by
  by_cases hall : ∀ k < 7, s.answer k = true
  · exact absurd (h.success hall).1 hlc
  · simp only [not_forall, Bool.not_eq_true] at hall
    obtain ⟨k, hk, hfail⟩ := hall
    exact (h.failure ⟨k, hk, hfail⟩).2

/-- Settles O55: DEINITIALIZE never sets the flag, and an INITIALIZE that clears it reports the failure. -/
theorem initializedFlagWriters : Obligations.InitializedFlagWriters := by
  intro i s t h
  refine ⟨fun hs ht => ?_, fun hs ht => ?_⟩
  · obtain rfl | rfl := lifecycle_of_initialized_ne h (by rw [hs, ht]; decide)
    · rfl
    · rw [initialized_iff, (exec_deinitializeDriver_spec h).1] at ht
      cases ht
  · obtain rfl | rfl := lifecycle_of_initialized_ne h (by rw [hs, ht]; decide)
    · refine .inr ⟨rfl, (exec_initializeDriver_spec h).transportFail fun hready => ?_⟩
      rw [initialized_iff.2 hready] at ht
      cases ht
    · exact .inl rfl

end Sys2Proof.Machine
end
